-- ==== Sys2Proof/Word.lean ====
section
/-! DEFINITION. The two word types of the engine: the byte of data memory (20_memory.md R50) and the 32-bit register
and address word (00_scope.md R7, `REG_W` = `ADDR_W` = 32). Every value is unsigned (00_scope.md R10). -/

namespace Sys2Proof

/-- One byte of data memory (R12). -/
abbrev Byte := BitVec 8

/-- A register value, a data-memory byte address, or an accumulator: 32 bits (R6 `ACC_W`, R7 `REG_W`, `ADDR_W`). -/
abbrev Word := BitVec 32

end Sys2Proof
end

