-- ==== Sys2Proof/Syntax.lean ====
section
/-! DEFINITION. The command set of spec/opcode_table.json, the three kinds of compute command, the register names, and
the atomic transitions of the two agents (00_scope.md R8, R9) that a run is made of. -/

namespace Sys2Proof

/-- The six commands (30_encoding.md R71), one constructor per row of the opcode table. No command carries an operand
(R73). An illegal word is no command: the decoder refuses it by name (Decode.lean). -/
inductive Instr where
  | nop
  | f16
  | f32b
  | f32w
  | abort
  | clear
deriving DecidableEq, Repr

/-- The kinds of compute command, as `STATUS.MODE` names them (10_state.md R28). -/
inductive Kind where
  | f16
  | f32b
  | f32w
deriving DecidableEq, Repr

/-- The compute command of a kind. -/
def Kind.instr : Kind → Instr
  | .f16 => .f16
  | .f32b => .f32b
  | .f32w => .f32w

/-- The eight host-visible registers (10_state.md R20). -/
inductive Reg where
  | ctrl
  | status
  | src
  | len
  | result
  | c0
  | c1
  | inten
deriving DecidableEq, Repr

/-- One atomic transition (00_scope.md R9). A register access carries its host-bus address and its width in bits, so
that the accesses the spec refuses (20_memory.md R51, R52) can be written down as well. -/
inductive Action where
  /-- A host write of `value` to the host-bus address `addr` (10_state.md R42). -/
  | write (addr : Nat) (width : Nat) (value : Word)
  /-- A host read of the host-bus address `addr` (10_state.md R41). -/
  | read (addr : Nat) (width : Nat)
  /-- The host writes one byte of data memory (20_memory.md R50, R62). -/
  | memWrite (addr : Word) (value : Byte)
  /-- The host reads one byte of data memory (20_memory.md R50, R62). -/
  | memRead (addr : Word)
  /-- The engine's turn: one element step if it is busy (40_engine_common.md R104). -/
  | engine
  /-- A hardware reset (70_reset_and_hazards.md R180). -/
  | reset
deriving DecidableEq, Repr

end Sys2Proof
end

