-- ==== Sys2Proof/WellFormed.lean ====
section
/-! DEFINITION. Well-formedness of what the host writes down. A command has no operand (30_encoding.md R73), so every
command is well-formed; a register access is well-formed when it is an aligned 32-bit access inside the window
(20_memory.md R51, R52). -/

namespace Sys2Proof

/-- Every command is well-formed: none has a field (R73). -/
def Instr.wf : Instr → Bool
  | .nop => true
  | .f16 => true
  | .f32b => true
  | .f32w => true
  | .abort => true
  | .clear => true

/-- An access the register window decodes: 32 bits wide (R52), at `base` plus one of the offsets 0x00 to 0x1C (R51), a
multiple of 4 from `base` (R52). -/
abbrev AccessWf (base addr width : Nat) : Prop :=
  width = 32 ∧ base ≤ addr ∧ addr < base + 0x20 ∧ (addr - base) % 4 = 0

/-- A transition is well-formed unless it is a register access the spec refuses. -/
abbrev Action.wf (base : Nat) : Action → Prop
  | .write addr width _ => AccessWf base addr width
  | .read addr width => AccessWf base addr width
  | .memWrite _ _ => True
  | .memRead _ => True
  | .engine => True
  | .reset => True

end Sys2Proof
end

