-- ==== Sys2Proof/Decode.lean ====
section
/-! DEFINITION. The command decoder (30_encoding.md R70 to R74), total on every 32-bit word, and after it the encoder,
written from the same table. -/

namespace Sys2Proof

/-- Why a word is no command (30_encoding.md R74). Both kinds act alike (43_control.md R153). -/
inductive IllegalWord where
  /-- `RSV`, bits 31:4, is not 0. -/
  | reservedBits
  /-- `RSV` is 0 and `OP` is one of 0x6 to 0xF. -/
  | reservedOpcode
deriving DecidableEq, Repr

/-- The outcome of decoding one word: a command, or `ILLEGAL` with its reason. -/
inductive Decoded where
  | command (i : Instr)
  | illegal (why : IllegalWord)
deriving DecidableEq, Repr

/-- The `OP` field, bits 3:0 (R70). -/
def opField (v : Word) : BitVec 4 := v.extractLsb' 0 4

/-- The `RSV` field, bits 31:4 (R70). -/
def rsvField (v : Word) : BitVec 28 := v.extractLsb' 4 28

/-- `Decode(v)` (R72). -/
def decode (v : Word) : Decoded :=
  if rsvField v ≠ 0 then .illegal .reservedBits
  else
    match (opField v).toNat with
    | 0 => .command .nop
    | 1 => .command .f16
    | 2 => .command .f32b
    | 3 => .command .f32w
    | 4 => .command .abort
    | 5 => .command .clear
    | _ => .illegal .reservedOpcode

/-- The opcode map (R71). -/
def opcode : Instr → BitVec 4
  | .nop => 0x0
  | .f16 => 0x1
  | .f32b => 0x2
  | .f32w => 0x3
  | .abort => 0x4
  | .clear => 0x5

/-- The command word: `RSV` = 0 above `OP` (R70, R71). -/
def encode (i : Instr) : Word := 0#28 ++ opcode i

/-- The command word given by its low `nbits` bits, every bit above them 0. A command is one 32-bit word (R70), and a
register value crosses the bus whole (20_memory.md R53), so no byte order enters. -/
def tableWord (nbits w : Nat) : Word := BitVec.ofNat 32 (w % 2 ^ nbits)

/-- What the decoder reads from the table's word; `none` where it refuses. -/
def decodeTableWord (nbits w : Nat) : Option Instr :=
  match decode (tableWord nbits w) with
  | .command i => some i
  | .illegal _ => none

end Sys2Proof
end

