-- ==== Sys2Proof/Config.lean ====
section
/-! DEFINITION. The open parameters of 00_scope.md R7: `BASE`, `WORD_ORDER` and `MemReadable`. The spec wants each of them
an argument of the model; `step` takes only a State, so they are a field of State that no transition writes (log entry
4), and a statement about every State is a statement about every value of them. -/

namespace Sys2Proof

/-- `WORD_ORDER` (20_memory.md R55): which of the two bytes of a 16-bit element is its low half. -/
inductive WordOrder where
  | le
  | be
deriving DecidableEq, Repr, Inhabited

/-- A run of data-memory addresses the engine's read port may read, both ends included. -/
structure Region where
  first : Word
  last : Word
deriving DecidableEq, Repr, Inhabited

/-- One platform: a value for each open parameter (R7). `MemReadable` is held as the list of its readable regions; any
total function of a 32-bit address is such a list (`exists_readable_regions`, log entry 6). -/
structure Platform where
  /-- `BASE`: the host-bus address of register offset 0x00 (10_state.md R20). -/
  base : Nat
  wordOrder : WordOrder
  readable : List Region
deriving DecidableEq, Repr

/-- The byte order of the platform `State.reset` stands on: a FREE VALUE, the spec leaves it OPEN (R7; log entry 5). -/
opaque Config.wordOrder : WordOrder

/-- The readable regions of the platform `State.reset` stands on: a FREE VALUE, the spec leaves `MemReadable` OPEN (R7;
log entry 5). -/
opaque Config.readable : List Region

/-- The window's place on the platform `State.reset` stands on. DESIGN CHOICE: the spec leaves `BASE` OPEN (log entry 5);
a numeral, so that decoding a bus address evaluates. No statement rests on it. -/
def Config.base : Nat := 0

/-- The platform of `State.reset`. -/
def Config.platform : Platform := ⟨Config.base, Config.wordOrder, Config.readable⟩

end Sys2Proof
end

