-- ==== Sys2Proof/Machine/State.lean ====
section
/-! DEFINITION. The state of the engine and of what surrounds it, as plain data: the registers of 10_state.md, the internal
state of R37 to R40, data memory (20_memory.md R50), the platform's open parameters (00_scope.md R7), and the model's
own two lists (transitions to come, values read). -/

namespace Sys2Proof.Machine

/-- `STATUS.ECODE` (10_state.md R27). The reserved codes 6 to 15 never appear, so they have no constructor. -/
inductive ECode where
  | none
  | illegal
  | align
  | length
  | bus
  | aborted
deriving DecidableEq, Repr

/-- The fields of `STATUS` (10_state.md R22 to R28). The reserved bits 31:10 hold nothing (R29). -/
structure Status where
  busy : Bool
  done : Bool
  err : Bool
  ovr : Bool
  ecode : ECode
  /-- `MODE`; `none` is the spec's own value 0, no compute command started (R28). -/
  mode : Option Kind
deriving DecidableEq, Repr

/-- The fields of `INTEN` (10_state.md R35). The reserved bits 31:2 hold nothing. -/
structure IntEn where
  ieDone : Bool
  ieErr : Bool
deriving DecidableEq, Repr

/-- Data memory (20_memory.md R50) in one canonical form (`Memory.wf`): addresses strictly rising, no entry equal to what
an unlisted address reads as. -/
abbrev Memory := List Host.Cell

/-- A value that a host read has returned, with what was read (30_encoding.md R75 `rd`). -/
inductive HostRead where
  | reg (r : Reg) (value : Word)
  | mem (addr : Word) (value : Byte)
deriving DecidableEq, Repr

/-- The whole state. -/
structure State where
  status : Status
  src : Word
  len : Word
  result : Word
  c0 : Word
  c1 : Word
  inten : IntEn
  /-- The byte address of the next element (R37). -/
  ptr : Word
  /-- Elements not yet accumulated (R38). -/
  rem : Word
  /-- Elements still to come before the next block reduction (R39). -/
  blk : Word
  /-- The running command is an `F32B` of odd length (R40). -/
  pad : Bool
  mem : Memory
  /-- The open parameters of 00_scope.md R7; no transition writes them. -/
  platform : Platform
  /-- The MODEL's own field: the transitions still to come, in their global order (R9, R62; log entry 1). -/
  pending : List Action
  /-- The MODEL's own field: what host reads have returned, newest first (log entry 3). -/
  returned : List HostRead
deriving DecidableEq, Repr

/-- `STATUS` after reset (R43). -/
def Status.reset : Status := ⟨false, false, false, false, .none, .none⟩

/-- The machine right after reset (10_state.md R43, 70_reset_and_hazards.md R180): every engine element 0, memory with
nothing listed, no transition pending, on the platform of Config.lean. -/
def State.reset : State where
  status := Status.reset
  src := 0
  len := 0
  result := 0
  c0 := 0
  c1 := 0
  inten := ⟨false, false⟩
  ptr := 0
  rem := 0
  blk := 0
  pad := false
  mem := []
  platform := Config.platform
  pending := []
  returned := []

/-- What stops the machine. The engine's own errors are no faults: they are recorded in `STATUS` and the machine goes on
(60_exceptions.md R162). -/
inductive Fault where
  /-- Raised by `engineStep` alone, when `BUSY` = 1 and `MODE` = 0. R99 gives no constants for that mode, and R44 (c) says
  no run reaches such a state. Safe: the machine stops (log entry 10). -/
  | noRunningMode
deriving DecidableEq, Repr

/-- What the model gives no meaning to. -/
inductive Refusal where
  /-- An instruction whose meaning is not written yet; raised by `exec`'s arms alone. Safe. -/
  | notModelled (mnemonic : String)
  /-- A register access that is not 32 bits wide; raised by `busRegister` (20_memory.md R52). Safe. -/
  | accessWidth
  /-- A register access that is not a multiple of 4 from `BASE`; raised by `busRegister` (20_memory.md R52). Safe. -/
  | accessMisaligned
  /-- A host access to an address that is none of the window's; raised by `busRegister` (20_memory.md R51). Safe. -/
  | accessOutsideWindow
deriving DecidableEq, Repr

end Sys2Proof.Machine
end

