-- ==== Sys2Proof/Machine/Flags.lean ====
section
/-! DEFINITION. The `STATUS` word and its updates, the `INTEN` word, and the interrupt line (10_state.md R22 to R29, R35;
60_exceptions.md R165). -/

namespace Sys2Proof.Machine

/-- The number of an error code in `STATUS.ECODE` (10_state.md R27). -/
def ECode.code : ECode → BitVec 4
  | .none => 0
  | .illegal => 1
  | .align => 2
  | .length => 3
  | .bus => 4
  | .aborted => 5

/-- The number of a mode in `STATUS.MODE` (10_state.md R28). -/
def modeCode : Option Kind → BitVec 2
  | none => 0
  | some .f16 => 1
  | some .f32b => 2
  | some .f32w => 3

/-- The value of `STATUS` (R22): MODE, ECODE, OVR, ERR, DONE, BUSY below 22 reserved zeros (R29). -/
def Status.word (st : Status) : Word :=
  0#22 ++ modeCode st.mode ++ st.ecode.code ++ BitVec.ofBool st.ovr ++ BitVec.ofBool st.err ++
    BitVec.ofBool st.done ++ BitVec.ofBool st.busy

/-- The status clear (40_engine_common.md R101). -/
def Status.cleared (st : Status) : Status :=
  { st with done := false, err := false, ovr := false, ecode := .none }

/-- The record of an error stop (60_exceptions.md R162). -/
def Status.stopped (st : Status) (code : ECode) : Status :=
  { st with busy := false, done := false, err := true, ecode := code }

/-- The overrun flag set (10_state.md R26). -/
def Status.overrun (st : Status) : Status := { st with ovr := true }

/-- `MODE` written (10_state.md R28). -/
def Status.withMode (st : Status) (m : Option Kind) : Status := { st with mode := m }

/-- `BUSY` set by a start (40_engine_common.md R102). -/
def Status.running (st : Status) : Status := { st with busy := true }

/-- `BUSY` cleared and `DONE` set: completion (R108), and R103, where `BUSY` is 0 already. -/
def Status.completed (st : Status) : Status := { st with busy := false, done := true }

/-- The value of `INTEN` (10_state.md R35). -/
def IntEn.word (ie : IntEn) : Word := 0#30 ++ BitVec.ofBool ie.ieErr ++ BitVec.ofBool ie.ieDone

/-- What a host write of `v` stores in `INTEN`: bits 1:0 (R35, R42). -/
def intEnOf (v : Word) : IntEn := ⟨v.getLsbD 0, v.getLsbD 1⟩

/-- The interrupt line (60_exceptions.md R165), a function of the state and no state of its own. -/
def State.irq (s : State) : Bool :=
  (s.status.done && s.inten.ieDone) || (s.status.err && s.inten.ieErr)

end Sys2Proof.Machine
end

