-- ==== Sys2Proof/Machine/Ops.lean ====
section
/-! DEFINITION. The operations every meaning is made of: writing each part of the state, data memory, the platform's map,
the status clear, the error stop (this engine's way of taking an exception; R164 says there is no return from one), the
overrun and the reset. -/

namespace Sys2Proof.Machine

/-! ### Data memory -/

/-- What a byte that nothing has written reads as. DESIGN CHOICE: the spec gives power-on memory no contents (log entry 7). -/
def Memory.unlisted : Byte := 0

/-- The byte at an address. -/
def Memory.read : Memory → Nat → Byte
  | [], _ => Memory.unlisted
  | (a, b) :: m, x => if x = a then b else Memory.read m x

/-- A byte put in front of the entries above it; the byte an unlisted address reads as is not listed. -/
def Memory.put (x : Nat) (v : Byte) (m : Memory) : Memory :=
  if v = Memory.unlisted then m else (x, v) :: m

/-- Writing one byte, keeping the canonical form. -/
def Memory.write : Memory → Nat → Byte → Memory
  | [], x, v => Memory.put x v []
  | (a, b) :: m, x, v =>
    if x < a then Memory.put x v ((a, b) :: m)
    else if x = a then Memory.put x v m
    else (a, b) :: Memory.write m x v

/-- The canonical form: addresses strictly rising and below 2^32 (20_memory.md R50), no entry equal to what an unlisted
address reads as. -/
abbrev Memory.wf (m : Memory) : Prop :=
  m.Pairwise (fun c d => c.1 < d.1) ∧ ∀ c ∈ m, c.1 < 2 ^ 32 ∧ c.2 ≠ Memory.unlisted

/-- An address lies in a region. -/
def regionCovers (r : Region) (a : Word) : Bool := decide (r.first ≤ a) && decide (a ≤ r.last)

/-- `MemReadable(a)` (00_scope.md R7, 20_memory.md R60). -/
def platformReadable (p : Platform) (a : Word) : Bool := p.readable.any (fun r => regionCovers r a)

/-- `MemRead(a, 1)` (00_scope.md R12). -/
def State.memByte (s : State) (a : Word) : Byte := s.mem.read a.toNat

/-- `MemReadable(a)` on the state's platform. -/
def State.memReadable (s : State) (a : Word) : Bool := platformReadable s.platform a

/-! ### Writing one part of the state -/

def State.withStatus (s : State) (st : Status) : State := { s with status := st }

def State.withSrc (s : State) (v : Word) : State := { s with src := v }

def State.withLen (s : State) (v : Word) : State := { s with len := v }

def State.withResult (s : State) (v : Word) : State := { s with result := v }

def State.withAcc (s : State) (c0 c1 : Word) : State := { s with c0 := c0, c1 := c1 }

def State.withIntEn (s : State) (ie : IntEn) : State := { s with inten := ie }

def State.withCursor (s : State) (ptr rem blk : Word) : State := { s with ptr := ptr, rem := rem, blk := blk }

def State.withPad (s : State) (pad : Bool) : State := { s with pad := pad }

def State.withMem (s : State) (m : Memory) : State := { s with mem := m }

def State.withPending (s : State) (p : List Action) : State := { s with pending := p }

def State.withReturned (s : State) (r : HostRead) : State := { s with returned := r :: s.returned }

/-! ### Shared effects -/

/-- `StatusClear()` (40_engine_common.md R101). -/
def statusClear (s : State) : State := s.withStatus s.status.cleared

/-- `raise Error(code)`: the error stop (60_exceptions.md R162). There is no vector, no saved pc and no mode change. -/
def errorStop (code : ECode) (s : State) : State := s.withStatus (s.status.stopped code)

/-- A command dropped while busy (40_engine_common.md R100): `OVR` and nothing else. -/
def dropCommand (s : State) : State := s.withStatus s.status.overrun

/-- The frame R100 puts around every command but `NOP` and `ABORT`, and around illegal words: dropped while busy; while
idle, `effect` after the status clear. -/
def acceptOrDrop (effect : State → State) (s : State) : State :=
  if s.status.busy then dropCommand s else effect (statusClear s)

/-- A reset (70_reset_and_hazards.md R180): every engine element to its value of R43; data memory, the platform and the
model's own lists stay. -/
def hardReset (s : State) : State :=
  { State.reset with mem := s.mem, platform := s.platform, pending := s.pending, returned := s.returned }

end Sys2Proof.Machine
end

