-- ==== Sys2Proof/Machine/Operands.lean ====
section
/-! DEFINITION. What the compute commands take as operands: the per-mode constants (40_engine_common.md R99), the length
rules (R121, R131, R133) and the assembly of one element (20_memory.md R55). -/

namespace Sys2Proof.Machine

/-- The modulus `M(MODE)` (R99, R6). -/
def modulus : Kind → Nat
  | .f16 => 255
  | .f32b => 65535
  | .f32w => 65535

/-- The block length `B(MODE)` in elements (R99, R6). -/
def blockLength : Kind → Nat
  | .f16 => 5002
  | .f32b => 360
  | .f32w => 360

/-- The packing shift `S(MODE)` (R99, R6). -/
def packShift : Kind → Nat
  | .f16 => 8
  | .f32b => 16
  | .f32w => 16

/-- The commands over 16-bit elements, which need `SRC` even (20_memory.md R57). -/
def wideElements : Kind → Bool
  | .f16 => false
  | .f32b => true
  | .f32w => true

/-- `(NELEM, NBYTES, PADv)` on unbounded naturals (40_engine_common.md R102). -/
structure LengthOperands where
  nelem : Nat
  nbytes : Nat
  pad : Bool
deriving DecidableEq, Repr

/-- `LengthOperands(F16, LEN)` (41_fletcher16.md R121). -/
def lengthF16 (len : Word) : LengthOperands := ⟨len.toNat, len.toNat, false⟩

/-- `LengthOperands(F32B, LEN)`, computed without wrap (42_fletcher32.md R131). -/
def lengthF32B (len : Word) : LengthOperands := ⟨(len.toNat + 1) / 2, len.toNat, len.toNat % 2 == 1⟩

/-- `LengthOperands(F32W, LEN)`, computed without wrap (42_fletcher32.md R133). -/
def lengthF32W (len : Word) : LengthOperands := ⟨len.toNat, 2 * len.toNat, false⟩

/-- The length rule of a kind. -/
def lengthOperands : Kind → Word → LengthOperands
  | .f16, len => lengthF16 len
  | .f32b, len => lengthF32B len
  | .f32w, len => lengthF32W len

/-- A 16-bit element from the byte at the lower address and the one above it (20_memory.md R55), zero-extended. -/
def element16 : WordOrder → Byte → Byte → Word
  | .le, b0, b1 => (b1 ++ b0).setWidth 32
  | .be, b0, b1 => (b0 ++ b1).setWidth 32

/-- An element and the number of bytes read for it (40_engine_common.md R105). -/
structure Element where
  value : Word
  bytes : Word
deriving DecidableEq, Repr

/-- `ReadElement()` (R105); `none` is `raise Error(BUS)`. The missing byte of the padded last element is 0 and is neither
read nor checked. -/
def readElement (k : Kind) (s : State) : Option Element :=
  if k = .f16 then
    if s.memReadable s.ptr then some ⟨(s.memByte s.ptr).setWidth 32, 1⟩ else none
  else if s.rem = 1 ∧ s.pad = true then
    if s.memReadable s.ptr then some ⟨element16 s.platform.wordOrder (s.memByte s.ptr) 0, 1⟩ else none
  else if s.memReadable s.ptr && s.memReadable (s.ptr + 1) then
    some ⟨element16 s.platform.wordOrder (s.memByte s.ptr) (s.memByte (s.ptr + 1)), 2⟩
  else none

end Sys2Proof.Machine
end

