-- ==== Sys2Proof/Machine/Compute.lean ====
section
/-! DEFINITION. The compute commands `F16`, `F32B` and `F32W` (41_fletcher16.md R120, 42_fletcher32.md R130, R132): the
start sequence all three share (40_engine_common.md R102, R103) and the meaning of each. -/

namespace Sys2Proof.Machine

/-- `ZeroLengthComplete()` (R103): completion in the transition of the `CTRL` write. -/
def zeroLengthComplete (s : State) : State := (s.withResult 0).withStatus s.status.completed

/-- The start checks of R102 in their order (60_exceptions.md R163): `ALIGN` before `LENGTH`. -/
def startError (k : Kind) (o : LengthOperands) (src : Word) : Option ECode :=
  if wideElements k && src.getLsbD 0 then some .align
  else if src.toNat + o.nbytes > 2 ^ 32 then some .length
  else none

/-- The operands latched by a start that passes its checks (R102). -/
def loadOperands (k : Kind) (o : LengthOperands) (s : State) : State :=
  ((s.withAcc 0 0).withCursor s.src (BitVec.ofNat 32 o.nelem) (BitVec.ofNat 32 (blockLength k))).withPad o.pad

/-- `Start(c)` (R102), after the status clear. -/
def start (k : Kind) (o : LengthOperands) (s : State) : State :=
  let s1 := s.withStatus (s.status.withMode (some k))
  match startError k o s.src with
  | some code => errorStop code s1
  | none =>
    let s2 := loadOperands k o s1
    if o.nelem = 0 then zeroLengthComplete s2 else s2.withStatus s2.status.running

/-- `F16` (R120). -/
def execF16 (s : State) : Host.Outcome State Fault Refusal :=
  .next (acceptOrDrop (start .f16 (lengthF16 s.len)) s)

/-- `F32B` (R130). -/
def execF32B (s : State) : Host.Outcome State Fault Refusal :=
  .next (acceptOrDrop (start .f32b (lengthF32B s.len)) s)

/-- `F32W` (R132). -/
def execF32W (s : State) : Host.Outcome State Fault Refusal :=
  .next (acceptOrDrop (start .f32w (lengthF32W s.len)) s)

end Sys2Proof.Machine
end

