-- ==== Sys2Proof/Machine/Control.lean ====
section
/-! DEFINITION. The control commands `NOP`, `ABORT` and `CLEAR`, and the illegal words (43_control.md R150 to R153). -/

namespace Sys2Proof.Machine

/-- `NOP` (R150): no effect, idle or busy. -/
def execNop (s : State) : Host.Outcome State Fault Refusal := .next s

/-- `ABORT` (R151): while busy the error stop `ABORTED`; while idle no effect. -/
def execAbort (s : State) : Host.Outcome State Fault Refusal :=
  .next (if s.status.busy then errorStop .aborted s else s)

/-- `Clear()` (R152), after the status clear. -/
def clearRecord (s : State) : State :=
  ((((s.withStatus (s.status.withMode none)).withResult 0).withAcc 0 0).withCursor 0 0 0).withPad false

/-- `CLEAR` (R152). -/
def execClear (s : State) : Host.Outcome State Fault Refusal := .next (acceptOrDrop clearRecord s)

/-- An illegal command word (R153): while idle the status clear and the error stop `ILLEGAL`; while busy dropped. -/
def illegalCommand (s : State) : Host.Outcome State Fault Refusal :=
  .next (acceptOrDrop (errorStop .illegal) s)

end Sys2Proof.Machine
end

