-- ==== Sys2Proof/Machine/Dispatch.lean ====
section
/-! DEFINITION. The command dispatch: one arm per command, each a call of its meaning. -/

namespace Sys2Proof.Machine

def exec (i : Instr) (s : State) : Host.Outcome State Fault Refusal :=
  match i with
  | .nop => Sys2Proof.Machine.execNop s
  | .f16 => Sys2Proof.Machine.execF16 s
  | .f32b => Sys2Proof.Machine.execF32B s
  | .f32w => Sys2Proof.Machine.execF32W s
  | .abort => Sys2Proof.Machine.execAbort s
  | .clear => Sys2Proof.Machine.execClear s

end Sys2Proof.Machine
end

