-- ==== Sys2Proof/Machine/Engine.lean ====
section
/-! DEFINITION. The engine agent: the element step (40_engine_common.md R104 to R108). -/

namespace Sys2Proof.Machine

/-- `Accumulate(e)` (R106): C1 adds the C0 just written; both are 32-bit registers. -/
def accumulate (e : Word) (s : State) : State := s.withAcc (s.c0 + e) (s.c1 + (s.c0 + e))

/-- The cursor after an element of `n` bytes (R104). -/
def advance (n : Word) (s : State) : State := s.withCursor (s.ptr + n) (s.rem - 1) (s.blk - 1)

/-- `C mod M(MODE)` as a 32-bit register value. -/
def reduceWord (k : Kind) (c : Word) : Word := BitVec.ofNat 32 (c.toNat % modulus k)

/-- `Reduce()` (R107). -/
def reduce (k : Kind) (s : State) : State :=
  (s.withAcc (reduceWord k s.c0) (reduceWord k s.c1)).withCursor s.ptr s.rem (BitVec.ofNat 32 (blockLength k))

/-- `(C1 << S(MODE)) | C0` (R108). -/
def packResult (k : Kind) (c0 c1 : Word) : Word := (c1 <<< packShift k) ||| c0

/-- `Complete()` (R108). -/
def complete (k : Kind) (s : State) : State :=
  (s.withResult (packResult k s.c0 s.c1)).withStatus s.status.completed

/-- The end of an element step: `Reduce()` at the end of a block or of the input, `Complete()` at the end of the input
(R104). -/
def closeElement (k : Kind) (s : State) : State :=
  let s1 := if s.blk = 0 ∨ s.rem = 0 then reduce k s else s
  if s.rem = 0 then complete k s1 else s1

/-- The element step of a running command of kind `k` (R104). -/
def elementStep (k : Kind) (s : State) : State :=
  match readElement k s with
  | none => errorStop .bus s
  | some e => closeElement k (advance e.bytes (accumulate e.value s))

/-- `EngineStep()`, enabled only while busy (R104). Without a running mode R99 has no constants: a fault (log entry 10). -/
def engineStep (s : State) : Host.Outcome State Fault Refusal :=
  match s.status.mode with
  | none => .fault .noRunningMode
  | some k => .next (elementStep k s)

/-- The engine's turn: an element step while `BUSY` = 1; while idle the engine takes no step and keeps all its state
(60_exceptions.md R172; log entry 2). -/
def engineTurn (s : State) : Host.Outcome State Fault Refusal :=
  if s.status.busy then engineStep s else .next s

end Sys2Proof.Machine
end

