-- ==== Sys2Proof/Machine/HostBus.lean ====
section
/-! DEFINITION. The host agent: the register window (10_state.md R20, R41, R42; 20_memory.md R51, R52), data memory as the
host reaches it (20_memory.md R62), and one transition of the whole system (00_scope.md R9). -/

namespace Sys2Proof.Machine

/-- A register's byte offset from `BASE` (10_state.md R20). -/
def regOffset : Reg → Nat
  | .ctrl => 0x00
  | .status => 0x04
  | .src => 0x08
  | .len => 0x0C
  | .result => 0x10
  | .c0 => 0x14
  | .c1 => 0x18
  | .inten => 0x1C

/-- The host-bus address of a register (R20). -/
def regAddr (p : Platform) (r : Reg) : Nat := p.base + regOffset r

/-- The register at an offset from `BASE`; `none` where R51 decodes nothing. -/
def regAt (off : Nat) : Option Reg :=
  match off with
  | 0x00 => some .ctrl
  | 0x04 => some .status
  | 0x08 => some .src
  | 0x0C => some .len
  | 0x10 => some .result
  | 0x14 => some .c0
  | 0x18 => some .c1
  | 0x1C => some .inten
  | _ => none

/-- The register an access reaches, or the refusal of R51 or R52 (log entry 9 fixes which is named when several hold). -/
def busRegister (p : Platform) (addr width : Nat) : Except Refusal Reg :=
  if width ≠ 32 then .error .accessWidth
  else if addr < p.base ∨ p.base + 0x20 ≤ addr then .error .accessOutsideWindow
  else
    match regAt (addr - p.base) with
    | some r => .ok r
    | none => .error .accessMisaligned

/-- The value a host read of a register returns (10_state.md R21 to R35). -/
def readReg (r : Reg) (s : State) : Word :=
  match r with
  | .ctrl => 0
  | .status => s.status.word
  | .src => s.src
  | .len => s.len
  | .result => s.result
  | .c0 => s.c0
  | .c1 => s.c1
  | .inten => s.inten.word

/-- `HostWriteCTRL(v)` (40_engine_common.md R100). -/
def writeCtrl (v : Word) (s : State) : Host.Outcome State Fault Refusal :=
  match decode v with
  | .command i => exec i s
  | .illegal _ => illegalCommand s

/-- A host write of `v` to a register (10_state.md R42). -/
def writeReg (r : Reg) (v : Word) (s : State) : Host.Outcome State Fault Refusal :=
  match r with
  | .ctrl => writeCtrl v s
  | .status => .next s
  | .src => .next (s.withSrc v)
  | .len => .next (s.withLen v)
  | .result => .next s
  | .c0 => .next s
  | .c1 => .next s
  | .inten => .next (s.withIntEn (intEnOf v))

/-- A host write to the bus. -/
def hostWrite (addr width : Nat) (v : Word) (s : State) : Host.Outcome State Fault Refusal :=
  match busRegister s.platform addr width with
  | .ok r => writeReg r v s
  | .error why => .refused why

/-- A host read of the bus: the value returned is logged, nothing else changes (R41). -/
def hostRead (addr width : Nat) (s : State) : Host.Outcome State Fault Refusal :=
  match busRegister s.platform addr width with
  | .ok r => .next (s.withReturned (.reg r (readReg r s)))
  | .error why => .refused why

/-- The host writes a byte of data memory (20_memory.md R62, R63). -/
def hostMemWrite (a : Word) (b : Byte) (s : State) : State := s.withMem (s.mem.write a.toNat b)

/-- The host reads a byte of data memory. -/
def hostMemRead (a : Word) (s : State) : State := s.withReturned (.mem a (s.memByte a))

/-- One atomic transition of the system (00_scope.md R9). -/
def transition (act : Action) (s : State) : Host.Outcome State Fault Refusal :=
  match act with
  | .write addr width v => hostWrite addr width v s
  | .read addr width => hostRead addr width s
  | .memWrite a b => .next (hostMemWrite a b s)
  | .memRead a => .next (hostMemRead a s)
  | .engine => engineTurn s
  | .reset => .next (hardReset s)

/-- The next transition: the first pending one, taken off the list; when none is pending the engine has its turn
(70_reset_and_hazards.md R190; log entry 1). -/
def nextTransition (s : State) : Host.Outcome State Fault Refusal :=
  match s.pending with
  | [] => engineTurn s
  | act :: rest => transition act (s.withPending rest)

/-- The host's write of a command word to `CTRL`, put in front of what is pending. -/
def pushCommandWord (v : Word) (s : State) : State :=
  s.withPending (.write (regAddr s.platform .ctrl) 32 v :: s.pending)

end Sys2Proof.Machine
end

