-- ==== Sys2Proof/Machine/HostSyntax.lean ====
section
/-! DEFINITION. The host program syntax (30_encoding.md R75) and the pseudo-instructions (R76), as the lists of transitions
they stand for. A `poll` is a loop in the host whose reads fall between engine steps in some way: its argument says how
many engine turns come before each read (log entry 13). -/

namespace Sys2Proof.Machine

/-- `wr REG, imm` (R75). -/
def wr (p : Platform) (r : Reg) (v : Word) : List Action := [.write (regAddr p r) 32 v]

/-- `rd REG -> t` (R75). -/
def rd (p : Platform) (r : Reg) : List Action := [.read (regAddr p r) 32]

/-- `cmd MNEMONIC` (R75): the command's word written to `CTRL`. -/
def cmd (p : Platform) (i : Instr) : List Action := wr p .ctrl (encode i)

/-- `mem addr: b0 b1 ...` (R75): the listed bytes at `addr`, `addr + 1`, and so on. -/
def memBytes : Word → List Byte → List Action
  | _, [] => []
  | a, b :: bs => .memWrite a b :: memBytes (a + 1) bs

/-- `poll STATUS.BUSY == 0` (R75): one read of `STATUS` for each number listed, after that many engine turns. -/
def poll (p : Platform) (turns : List Nat) : List Action :=
  turns.flatMap (fun n => List.replicate n Action.engine ++ rd p .status)

/-- The body of the three compute pseudo-instructions (R76). -/
def pseudoCompute (p : Platform) (i : Instr) (src len : Word) (turns : List Nat) : List Action :=
  wr p .src src ++ wr p .len len ++ cmd p i ++ poll p turns ++ rd p .result

/-- `fletcher16 s, n -> t` (R76). -/
def fletcher16 (p : Platform) (s n : Word) (turns : List Nat) : List Action := pseudoCompute p .f16 s n turns

/-- `fletcher32b s, n -> t` (R76). -/
def fletcher32b (p : Platform) (s n : Word) (turns : List Nat) : List Action := pseudoCompute p .f32b s n turns

/-- `fletcher32w s, n -> t` (R76). -/
def fletcher32w (p : Platform) (s n : Word) (turns : List Nat) : List Action := pseudoCompute p .f32w s n turns

/-- `wait` (R76). -/
def waitIdle (p : Platform) (turns : List Nat) : List Action := poll p turns

end Sys2Proof.Machine
end

