-- ==== Sys2Proof/Machine/Step.lean ====
section
/-! DEFINITION. One step of the system, and where the host places the next command. -/

namespace Sys2Proof.Machine

/-- One atomic transition (00_scope.md R9). -/
def step (s : State) : Host.Outcome State Fault Refusal := nextTransition s

/-- The state in which the very next step is the host's `CTRL` write of the given word (10_state.md R21: that write IS
this machine's fetch; log entry 12). -/
def State.withFetchWord (s : State) (nbits w : Nat) : State := pushCommandWord (tableWord nbits w) s

end Sys2Proof.Machine
end

