-- ==== Sys2Proof/Safety.lean ====
section
/-! DEFINITION. The terms claims are stated in: the invariants of every reachable state (10_state.md R44, with the address
facts of 20_memory.md R56, R57), when a compute command passes its start checks, and the input elements of a command as
plain numbers, against which the engine's sums are claimed (40_engine_common.md R110, R111). -/

namespace Sys2Proof.Machine

/-! ### The invariants -/

/-- Bytes a running command has still to read: one per element for `F16`, two for the others, less the pad byte, which is
never read (42_fletcher32.md R131). -/
def bytesLeft (k : Kind) (s : State) : Nat :=
  if wideElements k then 2 * s.rem.toNat - s.pad.toNat else s.rem.toNat

/-- Elements accumulated since the last reduction or the start (R44 (e)). -/
def sinceReduction (k : Kind) (s : State) : Nat := blockLength k - s.blk.toNat

/-- What holds between the element steps of a running command of kind `k` (R44 (c), (d), (e); R56; R57). -/
structure State.Running (k : Kind) (s : State) : Prop where
  mode : s.status.mode = some k
  record : s.status.done = false ∧ s.status.err = false ∧ s.status.ecode = .none
  rem_pos : 1 ≤ s.rem.toNat
  blk_range : 1 ≤ s.blk.toNat ∧ s.blk.toNat ≤ blockLength k
  pad_kind : s.pad = true → k = .f32b
  c0_bound : s.c0.toNat ≤ (modulus k - 1) + sinceReduction k s * modulus k
  c1_bound : s.c1.toNat ≤ (modulus k - 1) + sinceReduction k s * (modulus k - 1) +
    modulus k * (sinceReduction k s * (sinceReduction k s + 1) / 2)
  aligned : wideElements k = true → s.ptr.toNat % 2 = 0
  in_space : s.ptr.toNat + bytesLeft k s ≤ 2 ^ 32

/-- The invariants of every reachable state (R44), with the canonical form of data memory. -/
structure State.Inv (s : State) : Prop where
  err_iff_ecode : s.status.err = true ↔ s.status.ecode ≠ .none
  not_done_and_err : ¬ (s.status.done = true ∧ s.status.err = true)
  running : s.status.busy = true → ∃ k, s.Running k
  memory : s.mem.wf

/-! ### What comes next -/

/-- The next transition is the host's write of `v` to `CTRL`. -/
abbrev State.NextCommand (s : State) (v : Word) : Prop :=
  s.pending.head? = some (.write (regAddr s.platform .ctrl) 32 v)

/-- The next transition is the engine's turn. -/
abbrev State.NextEngine (s : State) : Prop := s.pending.head? = none ∨ s.pending.head? = some .engine

/-- The next transition is a reset. -/
abbrev State.NextReset (s : State) : Prop := s.pending.head? = some .reset

/-- The state with its first pending transition taken off the list. -/
def State.popped (s : State) : State := s.withPending s.pending.tail

/-! ### A compute command and its input -/

/-- The element count `NELEM` a command of kind `k` has in this state (R102). -/
def elementCount (k : Kind) (s : State) : Nat := (lengthOperands k s.len).nelem

/-- The byte count `NBYTES` a command of kind `k` has in this state (R102). -/
def byteCount (k : Kind) (s : State) : Nat := (lengthOperands k s.len).nbytes

/-- A command of kind `k` passes the start checks of R102. -/
abbrev StartPasses (k : Kind) (s : State) : Prop :=
  (wideElements k = true → s.src.toNat % 2 = 0) ∧ s.src.toNat + byteCount k s ≤ 2 ^ 32

/-- The first `n` bytes of the buffer at `SRC` are readable. -/
def ReadableBytes (s : State) (n : Nat) : Prop :=
  ∀ a : Word, s.src.toNat ≤ a.toNat → a.toNat < s.src.toNat + n → s.memReadable a = true

/-- Two bytes, the first at the lower address, as the 16-bit number of 20_memory.md R55. -/
def pairValue : WordOrder → Nat → Nat → Nat
  | .le, b0, b1 => b0 + 256 * b1
  | .be, b0, b1 => 256 * b0 + b1

/-- Element `i` of the input of a command of kind `k` (20_memory.md R55, R56), as a number; the byte after an odd-length
`F32B` buffer counts as 0 (42_fletcher32.md R131). -/
def inputElement (k : Kind) (s : State) (i : Nat) : Nat :=
  match k with
  | .f16 => (s.mem.read (s.src.toNat + i)).toNat
  | .f32b => pairValue s.platform.wordOrder (s.mem.read (s.src.toNat + 2 * i)).toNat
      (if 2 * i + 1 < s.len.toNat then (s.mem.read (s.src.toNat + 2 * i + 1)).toNat else 0)
  | .f32w => pairValue s.platform.wordOrder (s.mem.read (s.src.toNat + 2 * i)).toNat
      (s.mem.read (s.src.toNat + 2 * i + 1)).toNat

/-- The engine is idle and the one pending transition is the host's write of the command of kind `k`: from here the
command is written by the first step and every later step is the engine's turn. -/
def Commanded (k : Kind) (s : State) : Prop :=
  s.status.busy = false ∧ s.pending = [.write (regAddr s.platform .ctrl) 32 (encode k.instr)]

/-- Two states agree on everything the host can see of the engine and on its internal state (R37 to R40). -/
def SameEngine (s t : State) : Prop :=
  s.status = t.status ∧ s.result = t.result ∧ s.c0 = t.c0 ∧ s.c1 = t.c1 ∧ s.ptr = t.ptr ∧ s.rem = t.rem ∧
    s.blk = t.blk ∧ s.pad = t.pad

/-- A transition of the host that is no command, no memory write and no reset: it reads something, or writes a register
other than `CTRL`; or an engine turn. -/
def Bystander (p : Platform) : Action → Prop
  | .write addr width _ => AccessWf p.base addr width ∧ addr ≠ regAddr p .ctrl
  | .read addr width => AccessWf p.base addr width
  | .memWrite _ _ => False
  | .memRead _ => True
  | .engine => True
  | .reset => False

end Sys2Proof.Machine
end

