-- ==== Sys2Proof/Certificates/Slice0/Obligations.lean ====
section
/-! DEFINITION. The statements for the provers, each about the machine and none about a program. A docstring names the rule
of spec/ a statement formalises; OBLIGATIONS.json lists them. -/

open Sys2Proof Sys2Proof.Machine

/-! ### Encoding -/

/-- R71, R72, R74: the decoder answers the six words of the table as the table says, and refuses four illegal sample words. -/
def Obligations.TableWordsDecodeAsWritten : Prop :=
  decodeTableWord 32 0x00000000 = some .nop ∧ decodeTableWord 32 0x00000001 = some .f16 ∧
  decodeTableWord 32 0x00000002 = some .f32b ∧ decodeTableWord 32 0x00000003 = some .f32w ∧
  decodeTableWord 32 0x00000004 = some .abort ∧ decodeTableWord 32 0x00000005 = some .clear ∧
  decodeTableWord 32 0x00000006 = none ∧ decodeTableWord 32 0x0000000F = none ∧
  decodeTableWord 32 0x00000011 = none ∧ decodeTableWord 32 0x80000001 = none

/-- R71: a valid command word equals its opcode, every other word is illegal, and the compute opcodes are the MODE values.
Decoder and encoder agree on every word and every command. -/
def Obligations.CommandWordsAreExactlyTheTable : Prop :=
  (∀ (v : Word) (i : Instr), decode v = .command i ↔ v = encode i) ∧
  (∀ v : Word, (∃ why, decode v = .illegal why) ↔ 6 ≤ v.toNat) ∧
  (encode .nop).toNat = 0 ∧ (encode .f16).toNat = 1 ∧ (encode .f32b).toNat = 2 ∧ (encode .f32w).toNat = 3 ∧
  (encode .abort).toNat = 4 ∧ (encode .clear).toNat = 5 ∧
  ∀ k : Kind, (modeCode (some k)).toNat = (encode k.instr).toNat

/-! ### A step runs the decoded command -/

/-- R21, R100: when the next transition is the host's write of a word that decodes to `i` to `CTRL`, the step is `exec i` on
the state with that transition taken off the list. The list, and the place of a command at its head, are the model's own
(log entries 1 and 12). -/
def Obligations.StepRunsTheDecodedCommand : Prop :=
  (∀ (s : State) (v : Word) (i : Instr) (rest : List Action),
    s.pending = .write (s.platform.base + 0x00) 32 v :: rest → decode v = .command i →
    step s = exec i { s with pending := rest }) ∧
  ∀ (s : State) (i : Instr), step (s.withFetchWord 32 (encode i).toNat) = exec i s

/-- R153: an illegal word stops with `ILLEGAL` while idle and sets `OVR`, and nothing else, while busy. -/
def Obligations.IllegalWordsStopOrAreDropped : Prop :=
  ∀ (s : State) (v : Word) (rest : List Action),
    s.pending = .write (s.platform.base + 0x00) 32 v :: rest → 6 ≤ v.toNat →
    (s.status.busy = false → step s = .next { s with
      pending := rest
      status := { s.status with done := false, ovr := false, err := true, ecode := .illegal } }) ∧
    (s.status.busy = true → step s = .next { s with pending := rest, status := { s.status with ovr := true } })

/-! ### The commands -/

/-- R150: `NOP` has no effect in any state. -/
def Obligations.NopHasNoEffect : Prop := ∀ s : State, exec .nop s = .next s

/-- R151: `ABORT` stops a running command with `ABORTED`, and has no effect while idle. -/
def Obligations.AbortStopsOnlyARunningCommand : Prop :=
  ∀ s : State,
    (s.status.busy = true → exec .abort s = .next { s with
      status := { s.status with busy := false, done := false, err := true, ecode := .aborted } }) ∧
    (s.status.busy = false → exec .abort s = .next s)

/-- R152: `CLEAR` while idle returns the record to its reset values and lowers `IRQ`; while busy it only sets `OVR`. -/
def Obligations.ClearReturnsTheRecordToReset : Prop :=
  ∀ s : State,
    (s.status.busy = false → ∃ t, exec .clear s = .next t ∧
      t = { s with
        status := { busy := false, done := false, err := false, ovr := false, ecode := .none, mode := none }
        result := 0, c0 := 0, c1 := 0, ptr := 0, rem := 0, blk := 0, pad := false } ∧
      t.status.word = 0 ∧ t.irq = false) ∧
    (s.status.busy = true → exec .clear s = .next { s with status := { s.status with ovr := true } })

/-- R121 with R102: `F16` over `LEN` bytes. A non-empty buffer inside the address space starts the command with `LEN`
elements and no pad; a buffer past the top stops with `LENGTH`. -/
def Obligations.F16StartsOverLenBytes : Prop :=
  (∀ len : Word, lengthOperands .f16 len = { nelem := len.toNat, nbytes := len.toNat, pad := false }) ∧
  ∀ s : State, s.status.busy = false →
    (s.len ≠ 0 → s.src.toNat + s.len.toNat ≤ 2 ^ 32 → exec .f16 s = .next { s with
      status := { busy := true, done := false, err := false, ovr := false, ecode := .none, mode := some .f16 }
      c0 := 0, c1 := 0, ptr := s.src, rem := s.len, blk := 5002, pad := false }) ∧
    (2 ^ 32 < s.src.toNat + s.len.toNat → exec .f16 s = .next { s with
      status := { busy := false, done := false, err := true, ovr := false, ecode := .length, mode := some .f16 } })

/-- R131 with R102: `F32B` over `LEN` bytes: `(LEN + 1) div 2` elements computed without wrap, the pad flag for an odd
`LEN`, and only `LEN` bytes in the `LENGTH` check. -/
def Obligations.F32BStartsOverRoundedUpBytes : Prop :=
  (∀ len : Word, lengthOperands .f32b len =
    { nelem := (len.toNat + 1) / 2, nbytes := len.toNat, pad := decide (len.toNat % 2 = 1) }) ∧
  ∀ s : State, s.status.busy = false → s.src.toNat % 2 = 0 →
    (s.len ≠ 0 → s.src.toNat + s.len.toNat ≤ 2 ^ 32 → exec .f32b s = .next { s with
      status := { busy := true, done := false, err := false, ovr := false, ecode := .none, mode := some .f32b }
      c0 := 0, c1 := 0, ptr := s.src, rem := BitVec.ofNat 32 ((s.len.toNat + 1) / 2), blk := 360
      pad := decide (s.len.toNat % 2 = 1) }) ∧
    (2 ^ 32 < s.src.toNat + s.len.toNat → exec .f32b s = .next { s with
      status := { busy := false, done := false, err := true, ovr := false, ecode := .length, mode := some .f32b } })

/-- R133 with R102: `F32W` over `LEN` words: `LEN` elements, `2 * LEN` bytes computed without wrap. -/
def Obligations.F32WStartsOverLenWords : Prop :=
  (∀ len : Word, lengthOperands .f32w len = { nelem := len.toNat, nbytes := 2 * len.toNat, pad := false }) ∧
  ∀ s : State, s.status.busy = false → s.src.toNat % 2 = 0 →
    (s.len ≠ 0 → s.src.toNat + 2 * s.len.toNat ≤ 2 ^ 32 → exec .f32w s = .next { s with
      status := { busy := true, done := false, err := false, ovr := false, ecode := .none, mode := some .f32w }
      c0 := 0, c1 := 0, ptr := s.src, rem := s.len, blk := 360, pad := false }) ∧
    (2 ^ 32 < s.src.toNat + 2 * s.len.toNat → exec .f32w s = .next { s with
      status := { busy := false, done := false, err := true, ovr := false, ecode := .length, mode := some .f32w } })

/-- R103: a zero-length command that passes `ALIGN` completes in the transition of the `CTRL` write, with result 0. -/
def Obligations.ZeroLengthCommandCompletesAtOnce : Prop :=
  ∀ (k : Kind) (s : State), s.status.busy = false → s.len = 0 → (k ≠ .f16 → s.src.toNat % 2 = 0) →
    exec k.instr s = .next { s with
      status := { busy := false, done := true, err := false, ovr := false, ecode := .none, mode := some k }
      result := 0, c0 := 0, c1 := 0, ptr := s.src, rem := 0
      blk := match k with | .f16 => 5002 | .f32b => 360 | .f32w => 360
      pad := false }

/-- R163, R160: an odd `SRC` stops a 16-bit-element command with `ALIGN`, before any `LENGTH` check and even when
`LEN` = 0; `MODE` is written, everything else is left. -/
def Obligations.OddSourceStopsWithAlign : Prop :=
  ∀ (k : Kind) (s : State), k ≠ .f16 → s.status.busy = false → s.src.toNat % 2 = 1 →
    exec k.instr s = .next { s with
      status := { busy := false, done := false, err := true, ovr := false, ecode := .align, mode := some k } }

/-- R186, with R100: while busy, any word but `NOP` and `ABORT`, legal or not, sets `OVR` and changes nothing else; `NOP`
changes nothing and `ABORT` stops the command. -/
def Obligations.CommandWrittenWhileBusyIsDropped : Prop :=
  ∀ (s : State) (v : Word) (rest : List Action), s.status.busy = true →
    s.pending = .write (s.platform.base + 0x00) 32 v :: rest →
    (v ≠ 0 → v ≠ 4 → step s = .next { s with pending := rest, status := { s.status with ovr := true } }) ∧
    (v = 0 → step s = .next { s with pending := rest }) ∧
    (v = 4 → step s = .next { s with
      pending := rest
      status := { s.status with busy := false, done := false, err := true, ecode := .aborted } })

/-! ### Frames -/

/-- The frame of the control commands (R150 to R152, R45): no host register, memory byte, platform parameter or list of the
model changes; `NOP` changes nothing at all; `ABORT` writes no field but `BUSY`, `DONE`, `ERR` and `ECODE`; `CLEAR` writes
no field of `STATUS` but `OVR` while busy. -/
def Obligations.ControlCommandFrame : Prop :=
  ∀ (i : Instr) (s t : State), i = .nop ∨ i = .abort ∨ i = .clear → exec i s = .next t →
    t.src = s.src ∧ t.len = s.len ∧ t.inten = s.inten ∧ t.platform = s.platform ∧ t.pending = s.pending ∧
    t.returned = s.returned ∧ (∀ a : Nat, t.mem.read a = s.mem.read a) ∧
    (i = .nop ∨ i = .abort ∨ s.status.busy = true →
      t.result = s.result ∧ t.c0 = s.c0 ∧ t.c1 = s.c1 ∧ t.ptr = s.ptr ∧ t.rem = s.rem ∧ t.blk = s.blk ∧
      t.pad = s.pad ∧ t.status.mode = s.status.mode) ∧
    (i = .nop → t.status = s.status) ∧
    (i = .abort → t.status.ovr = s.status.ovr ∧ (s.status.busy = false → t.status = s.status)) ∧
    (i = .clear → s.status.busy = true → t.status = { s.status with ovr := true })

/-- The frame of the compute commands (R102, R45): no host register, memory byte, platform parameter or list of the model
changes; `RESULT` changes only by a zero-length completion; a command that is dropped or that stops with an error leaves
the accumulators and the internal registers; a dropped one leaves every field of `STATUS` but `OVR`. -/
def Obligations.ComputeCommandFrame : Prop :=
  ∀ (k : Kind) (s t : State), exec k.instr s = .next t →
    t.src = s.src ∧ t.len = s.len ∧ t.inten = s.inten ∧ t.platform = s.platform ∧ t.pending = s.pending ∧
    t.returned = s.returned ∧ (∀ a : Nat, t.mem.read a = s.mem.read a) ∧
    (t.result = s.result ∨ (s.status.busy = false ∧ s.len = 0 ∧ t.status.done = true ∧ t.result = 0)) ∧
    (s.status.busy = true ∨ t.status.err = true →
      t.result = s.result ∧ t.c0 = s.c0 ∧ t.c1 = s.c1 ∧ t.ptr = s.ptr ∧ t.rem = s.rem ∧ t.blk = s.blk ∧
      t.pad = s.pad) ∧
    (s.status.busy = true → t.status = { s.status with ovr := true })

/-- The frame of an element step (R45, R54): the engine writes only `STATUS`, `RESULT`, `C0`, `C1`, `PTR`, `REM` and `BLK`;
of `STATUS` it leaves `OVR` and `MODE`; a step that does not complete leaves `RESULT`. The turn the model's list gives the
engine while it is idle changes nothing: that clause is the model's (R172; log entry 2). -/
def Obligations.ElementStepFrame : Prop :=
  ∀ s t : State, s.NextEngine → step s = .next t →
    t.src = s.src ∧ t.len = s.len ∧ t.inten = s.inten ∧ t.platform = s.platform ∧ t.returned = s.returned ∧
    t.pending = s.pending.tail ∧ t.pad = s.pad ∧ (∀ a : Nat, t.mem.read a = s.mem.read a) ∧
    t.status.ovr = s.status.ovr ∧ t.status.mode = s.status.mode ∧
    (t.status.busy = true ∨ t.status.done = false → t.result = s.result) ∧
    (s.status.busy = false → t = { s with pending := s.pending.tail })

/-! ### The element step -/

/-- R104 with R99, R106, R107 and R108: an element step that can read its element accumulates it, moves the cursor, reduces
both sums exactly at the end of a block or of the input, and completes at the end of the input; one that cannot read it
stops with `BUS`. Two parts are the model's: the turn its list gives the engine while idle changes nothing (R172; log entry
2), and `REM` and `BLK` wrap below 0, in states that no run reaches (log entry 11). -/
def Obligations.ElementStepAccumulatesReducesCompletes : Prop :=
  (∀ (k : Kind) (s : State) (e : Element), s.NextEngine → s.status.busy = true → s.status.mode = some k →
    readElement k s = some e →
    let m : Word := match k with | .f16 => 255 | .f32b => 65535 | .f32w => 65535
    let b : Word := match k with | .f16 => 5002 | .f32b => 360 | .f32w => 360
    let sh : Nat := match k with | .f16 => 8 | .f32b => 16 | .f32w => 16
    let c0 : Word := if s.rem = 1 ∨ s.blk = 1 then (s.c0 + e.value) % m else s.c0 + e.value
    let c1 : Word := if s.rem = 1 ∨ s.blk = 1 then (s.c1 + (s.c0 + e.value)) % m else s.c1 + (s.c0 + e.value)
    step s = .next { s with
      pending := s.pending.tail
      c0 := c0, c1 := c1, ptr := s.ptr + e.bytes, rem := s.rem - 1
      blk := if s.rem = 1 ∨ s.blk = 1 then b else s.blk - 1
      result := if s.rem = 1 then (c1 <<< sh) ||| c0 else s.result
      status := if s.rem = 1 then { s.status with busy := false, done := true } else s.status }) ∧
  (∀ (k : Kind) (s : State), s.NextEngine → s.status.busy = true → s.status.mode = some k → readElement k s = none →
    step s = .next { s with
      pending := s.pending.tail
      status := { s.status with busy := false, done := false, err := true, ecode := .bus } }) ∧
  ∀ s : State, s.NextEngine → s.status.busy = false → step s = .next { s with pending := s.pending.tail }

/-- R105 with R55: the element read. `F16` reads one byte; the padded last `F32B` element one byte and a zero; every other
element two bytes in `WORD_ORDER`. A needed byte that is not readable stops the command with `BUS` before anything is
accumulated. That `PTR` + 1 wraps to address 0 when `PTR` is 0xFFFFFFFF is the model's (log entry 11): R105 says that it cannot
wrap, since `PTR` is even there, and no run reaches such a state. -/
def Obligations.ElementReadByModeOrBusStop : Prop :=
  (∀ s : State, s.memReadable s.ptr = true →
    ∃ e, readElement .f16 s = some e ∧ e.bytes = 1 ∧ e.value.toNat = (s.memByte s.ptr).toNat) ∧
  (∀ (k : Kind) (s : State), k ≠ .f16 → s.rem = 1 → s.pad = true → s.memReadable s.ptr = true →
    ∃ e, readElement k s = some e ∧ e.bytes = 1 ∧ e.value.toNat =
      match s.platform.wordOrder with
      | .le => (s.memByte s.ptr).toNat
      | .be => 256 * (s.memByte s.ptr).toNat) ∧
  (∀ (k : Kind) (s : State), k ≠ .f16 → ¬ (s.rem = 1 ∧ s.pad = true) → s.memReadable s.ptr = true →
    s.memReadable (s.ptr + 1) = true →
    ∃ e, readElement k s = some e ∧ e.bytes = 2 ∧ e.value.toNat =
      match s.platform.wordOrder with
      | .le => (s.memByte s.ptr).toNat + 256 * (s.memByte (s.ptr + 1)).toNat
      | .be => 256 * (s.memByte s.ptr).toNat + (s.memByte (s.ptr + 1)).toNat) ∧
  (∀ (k : Kind) (s : State), s.NextEngine → s.status.busy = true → s.status.mode = some k →
    (s.memReadable s.ptr = false ∨
      (k ≠ .f16 ∧ ¬ (s.rem = 1 ∧ s.pad = true) ∧ s.memReadable (s.ptr + 1) = false)) →
    step s = .next { s with
      pending := s.pending.tail
      status := { s.status with busy := false, done := false, err := true, ecode := .bus } })

/-- R109: a completing step leaves both sums below the modulus, and `RESULT` is their disjoint concatenation; for `F16` its
upper half is 0. -/
def Obligations.CompletionPacksTheReducedSums : Prop :=
  ∀ (k : Kind) (s : State), s.NextEngine → s.status.busy = true → s.status.mode = some k →
    readElement k s ≠ none → s.rem = 1 →
    ∃ t, step s = .next t ∧ t.status.done = true ∧ t.status.busy = false ∧
      match k with
      | .f16 => t.c0.toNat < 255 ∧ t.c1.toNat < 255 ∧ t.result.toNat = t.c1.toNat * 256 + t.c0.toNat ∧
          t.result.toNat < 65536
      | .f32b => t.c0.toNat < 65535 ∧ t.c1.toNat < 65535 ∧ t.result.toNat = t.c1.toNat * 65536 + t.c0.toNat
      | .f32w => t.c0.toNat < 65535 ∧ t.c1.toNat < 65535 ∧ t.result.toNat = t.c1.toNat * 65536 + t.c0.toNat

/-- R162: the error stop changes `BUSY`, `DONE`, `ERR` and `ECODE` and nothing else. So a step that leaves a new error
record, in a machine where a running command has no error recorded (R44 (c)), changes besides those only the `MODE` of a
start that its checks stop and, while idle, the `OVR` of the status clear before it. -/
def Obligations.ErrorStopChangesOnlyTheRecord : Prop :=
  (∀ (code : ECode) (s : State), errorStop code s = { s with
    status := { busy := false, done := false, err := true, ovr := s.status.ovr, ecode := code, mode := s.status.mode } }) ∧
  ∀ s t : State, (s.status.busy = true → s.status.err = false) → step s = .next t → t.status.err = true →
    t.status ≠ s.status →
    t.status.ecode ≠ .none ∧ (t.status.mode = s.status.mode ∨ t.status.ecode = .align ∨ t.status.ecode = .length) ∧
    t = { s with
      pending := s.pending.tail
      status := { busy := false, done := false, err := true, ovr := s.status.busy && s.status.ovr
                  ecode := t.status.ecode, mode := t.status.mode } }

/-! ### Registers -/

/-- R41 with R20: a 32-bit read at a register's offset returns its value and changes no state of the machine. What it
returned is recorded in the model's own list (log entry 3). -/
def Obligations.HostReadReturnsTheRegister : Prop :=
  ∀ (s : State) (r : Reg) (rest : List Action),
    s.pending = .read (s.platform.base + match r with
      | .ctrl => 0x00 | .status => 0x04 | .src => 0x08 | .len => 0x0C
      | .result => 0x10 | .c0 => 0x14 | .c1 => 0x18 | .inten => 0x1C) 32 :: rest →
    step s = .next { s with
      pending := rest
      returned := .reg r (match r with
        | .ctrl => 0 | .status => s.status.word | .src => s.src | .len => s.len
        | .result => s.result | .c0 => s.c0 | .c1 => s.c1 | .inten => s.inten.word) :: s.returned }

/-- R42 with R20: a 32-bit write to `SRC` or `LEN` stores the value, one to `INTEN` its bits 1:0, one to `CTRL` issues a
command, one to a read-only register is ignored; none changes data memory. -/
def Obligations.HostWriteActsByRegister : Prop :=
  ∀ (s : State) (v : Word) (rest : List Action),
    (s.pending = .write (s.platform.base + 0x08) 32 v :: rest → step s = .next { s with pending := rest, src := v }) ∧
    (s.pending = .write (s.platform.base + 0x0C) 32 v :: rest → step s = .next { s with pending := rest, len := v }) ∧
    (s.pending = .write (s.platform.base + 0x1C) 32 v :: rest →
      step s = .next { s with pending := rest, inten := ⟨v.getLsbD 0, v.getLsbD 1⟩ }) ∧
    (s.pending = .write (s.platform.base + 0x00) 32 v :: rest → step s = writeCtrl v { s with pending := rest }) ∧
    (∀ off : Nat, off = 0x04 ∨ off = 0x10 ∨ off = 0x14 ∨ off = 0x18 →
      s.pending = .write (s.platform.base + off) 32 v :: rest → step s = .next { s with pending := rest }) ∧
    ∀ (off : Nat) (t : State), s.pending = .write (s.platform.base + off) 32 v :: rest → step s = .next t →
      t.mem = s.mem

/-- R22, R29: where each field stands in the `STATUS` word, the numbers of the error codes (R27) and modes (R28), and zeros
in the reserved bits of every state. -/
def Obligations.StatusWordLayout : Prop :=
  ∀ s : State,
    let w := readReg .status s
    w.getLsbD 0 = s.status.busy ∧ w.getLsbD 1 = s.status.done ∧ w.getLsbD 2 = s.status.err ∧
    w.getLsbD 3 = s.status.ovr ∧
    (w.extractLsb' 4 4).toNat = (match s.status.ecode with
      | .none => 0 | .illegal => 1 | .align => 2 | .length => 3 | .bus => 4 | .aborted => 5) ∧
    (w.extractLsb' 8 2).toNat = (match s.status.mode with
      | none => 0 | some .f16 => 1 | some .f32b => 2 | some .f32w => 3) ∧
    (w.extractLsb' 10 22).toNat = 0

/-- R35 with R165: after a write of `v` to `INTEN` the register reads `v[1:0]` zero-extended, and the line follows the new
enables at once. -/
def Obligations.IntEnWriteGatesTheLineAtOnce : Prop :=
  ∀ (s : State) (v : Word) (rest : List Action), s.pending = .write (s.platform.base + 0x1C) 32 v :: rest →
    ∃ t, step s = .next t ∧ (readReg .inten t).toNat = v.toNat % 4 ∧
      t.irq = ((s.status.done && v.getLsbD 0) || (s.status.err && v.getLsbD 1))

/-- R52 with R51: an access of another width, at an address that is no multiple of 4 from `BASE`, or outside the window is
refused, and no other access is. -/
def Obligations.OnlyAlignedWindowAccessesAreAnswered : Prop :=
  ∀ (s : State) (addr width : Nat) (v : Word) (rest : List Action),
    s.pending = .write addr width v :: rest ∨ s.pending = .read addr width :: rest →
    ((∃ why, step s = .refused why) ↔
      ¬ (width = 32 ∧ s.platform.base ≤ addr ∧ addr < s.platform.base + 0x20 ∧ (addr - s.platform.base) % 4 = 0))

/-! ### Reset -/

/-- R180: a reset zeroes every engine element and lowers `IRQ`; data memory stays. That the model's own list of host reads
stays too is the model's choice (log entry 3), as is that its list of transitions and its platform stay (log entries 1, 4). -/
def Obligations.ResetZeroesTheEngineAndKeepsMemory : Prop :=
  ∀ (s : State) (rest : List Action), s.pending = .reset :: rest →
    ∃ t, step s = .next t ∧ t.irq = false ∧
      t = { status := { busy := false, done := false, err := false, ovr := false, ecode := .none, mode := none }
            src := 0, len := 0, result := 0, c0 := 0, c1 := 0, inten := ⟨false, false⟩
            ptr := 0, rem := 0, blk := 0, pad := false
            mem := s.mem, platform := s.platform, pending := rest, returned := s.returned }

/-- R181: after reset the engine is idle with no record, the interrupt enables are off, and every register reads 0. -/
def Obligations.ResetStateIsIdleWithNoRecord : Prop :=
  State.reset.status = { busy := false, done := false, err := false, ovr := false, ecode := .none, mode := none } ∧
  State.reset.inten = ⟨false, false⟩ ∧ (∀ r : Reg, readReg r State.reset = 0) ∧ State.reset.irq = false ∧
  State.reset.ptr = 0 ∧ State.reset.rem = 0 ∧ State.reset.blk = 0 ∧ State.reset.pad = false

/-! ### Data memory -/

/-- R62: a host write of one byte changes that byte and no other, and nothing of the engine; a host read returns the byte
last written and changes nothing else but the model's list of reads (log entry 3). The canonical form is assumed of the
state; `EveryStepKeepsTheInvariants` keeps it. That the host reaches every address, whatever `MemReadable` says, is the
model's (log entry 14). -/
def Obligations.HostMemoryAccessesAreBytewise : Prop :=
  ∀ (s : State) (a : Word) (rest : List Action), s.mem.wf →
    (∀ b : Byte, s.pending = .memWrite a b :: rest →
      ∃ t, step s = .next t ∧ (∀ x : Nat, t.mem.read x = if x = a.toNat then b else s.mem.read x) ∧
        t = { s with pending := rest, mem := t.mem }) ∧
    (s.pending = .memRead a :: rest →
      step s = .next { s with pending := rest, returned := .mem a (s.mem.read a.toNat) :: s.returned })

/-- R45 with R54: `SRC`, `LEN` and `INTEN` change only by a host write of the value they then hold or by reset, data memory
only by the host's own write, so no engine transition writes a byte of it; the open parameters never change. -/
def Obligations.OnlyTheHostWritesHostState : Prop :=
  ∀ s t : State, step s = .next t →
    (t.src ≠ s.src → s.pending.head? = some (.write (regAddr s.platform .src) 32 t.src) ∨ (s.NextReset ∧ t.src = 0)) ∧
    (t.len ≠ s.len → s.pending.head? = some (.write (regAddr s.platform .len) 32 t.len) ∨ (s.NextReset ∧ t.len = 0)) ∧
    (t.inten ≠ s.inten →
      (∃ v, s.pending.head? = some (.write (regAddr s.platform .inten) 32 v) ∧ t.inten.word.toNat = v.toNat % 4) ∨
      (s.NextReset ∧ t.inten = ⟨false, false⟩)) ∧
    (t.mem ≠ s.mem → ∃ a b, s.pending.head? = some (.memWrite a b)) ∧
    t.platform = s.platform

/-! ### Whole-machine rules: what alone writes each field -/

/-- R23: only the start of a command with elements sets `BUSY`; only completion, an error stop or reset clears it; the
engine steps only while it is 1: that a turn the model's list gives it while idle changes nothing is the model's clause
(R172; log entry 2). -/
def Obligations.BusyChangesOnlyByStartStopReset : Prop :=
  ∀ s t : State, step s = .next t →
    (s.status.busy = false → t.status.busy = true →
      ∃ k : Kind, s.NextCommand (encode k.instr) ∧ StartPasses k s ∧ elementCount k s ≠ 0) ∧
    (s.status.busy = true → t.status.busy = false →
      (s.NextEngine ∧ s.rem = 1 ∧ t.status.done = true) ∨
      (s.NextEngine ∧ t.status.err = true ∧ t.status.ecode = .bus) ∨
      (s.NextCommand 4 ∧ t.status.err = true ∧ t.status.ecode = .aborted) ∨
      (s.NextReset ∧ t.status.done = false ∧ t.status.err = false)) ∧
    (s.status.busy = false → s.NextEngine → t = { s with pending := s.pending.tail })

/-- R24: only a completion sets `DONE`, in the step of the last element or at a zero-length start, and `RESULT` is written
with it; only the status clear of an accepted command, an error stop or reset clears it. -/
def Obligations.DoneChangesOnlyByCompletionAndClear : Prop :=
  ∀ s t : State, step s = .next t →
    (s.status.done = false → t.status.done = true →
      (s.NextEngine ∧ s.status.busy = true ∧ s.rem = 1 ∧
        ∃ k, s.status.mode = some k ∧ t.result = packResult k t.c0 t.c1) ∨
      (s.status.busy = false ∧ t.result = 0 ∧
        ∃ k : Kind, s.NextCommand (encode k.instr) ∧ StartPasses k s ∧ elementCount k s = 0)) ∧
    (s.status.done = true → t.status.done = false →
      (s.status.busy = false ∧ ∃ v, s.NextCommand v ∧ v ≠ 0 ∧ v ≠ 4) ∨
      (s.status.busy = true ∧ t.status.err = true) ∨
      s.NextReset)

/-- R26 with R166: `OVR` is set exactly by a word other than `NOP` and `ABORT` written while busy, and that changes nothing
else, `IRQ` included; only the status clear of an accepted command and reset clear it. -/
def Obligations.OvrIsStickyAndHarmless : Prop :=
  ∀ s t : State, step s = .next t →
    (s.status.ovr = false → t.status.ovr = true →
      s.status.busy = true ∧ (∃ v, s.NextCommand v ∧ v ≠ 0 ∧ v ≠ 4) ∧ t.irq = s.irq ∧
      t = { s with pending := s.pending.tail, status := { s.status with ovr := true } }) ∧
    (s.status.busy = true → (∃ v, s.NextCommand v ∧ v ≠ 0 ∧ v ≠ 4) → t.status.ovr = true) ∧
    (s.status.ovr = true → t.status.ovr = false →
      (s.status.busy = false ∧ ∃ v, s.NextCommand v ∧ v ≠ 0 ∧ v ≠ 4) ∨ s.NextReset)

/-- R160, R25, R27: `ERR` rises only with the cause its code names, and the accumulators stay as after the element before;
`ECODE` or `ERR` changes otherwise only by the status clear of an accepted command or by reset. -/
def Obligations.ErrorsHaveTheirCauses : Prop :=
  ∀ s t : State, step s = .next t → t.status.err ≠ s.status.err ∨ t.status.ecode ≠ s.status.ecode →
    (t.status.err = true ∧ t.status.busy = false ∧ t.status.done = false ∧ t.c0 = s.c0 ∧ t.c1 = s.c1 ∧
      t.result = s.result ∧
      ((t.status.ecode = .illegal ∧ s.status.busy = false ∧ t.status.mode = s.status.mode ∧
          ∃ v, s.NextCommand v ∧ 6 ≤ v.toNat) ∨
       (t.status.ecode = .align ∧ s.status.busy = false ∧ s.src.toNat % 2 = 1 ∧
          ∃ k : Kind, k ≠ .f16 ∧ s.NextCommand (encode k.instr) ∧ t.status.mode = some k) ∨
       (t.status.ecode = .length ∧ s.status.busy = false ∧
          ∃ k : Kind, s.NextCommand (encode k.instr) ∧ t.status.mode = some k ∧
            2 ^ 32 < s.src.toNat + byteCount k s) ∨
       (t.status.ecode = .bus ∧ s.status.busy = true ∧ t.status.mode = s.status.mode ∧ s.NextEngine ∧
          ∃ k, s.status.mode = some k ∧ readElement k s = none) ∨
       (t.status.ecode = .aborted ∧ s.status.busy = true ∧ t.status.mode = s.status.mode ∧ s.NextCommand 4))) ∨
    (t.status.err = false ∧ t.status.ecode = .none ∧
      (s.NextReset ∨ (s.status.busy = false ∧ ∃ v, s.NextCommand v ∧ v ≠ 0 ∧ v ≠ 4)))

/-- R28: `MODE` changes only at the start of a compute command, which writes its own kind even when a start check stops it,
and by `CLEAR` or reset, which write 0. -/
def Obligations.ModeNamesTheLastCommandStarted : Prop :=
  (∀ s t : State, step s = .next t → t.status.mode ≠ s.status.mode →
    (s.status.busy = false ∧ ∃ k : Kind, s.NextCommand (encode k.instr) ∧ t.status.mode = some k) ∨
    (s.status.busy = false ∧ s.NextCommand 5 ∧ t.status.mode = none) ∨
    (s.NextReset ∧ t.status.mode = none)) ∧
  ∀ (k : Kind) (s : State), s.status.busy = false → s.NextCommand (encode k.instr) →
    ∃ t, step s = .next t ∧ t.status.mode = some k

/-- R64: while idle, `RESULT`, `C0`, `C1` and `STATUS` do not change until the host writes a command other than `NOP` and
`ABORT`, or resets the engine. -/
def Obligations.ResultsStayUntilTheNextCommand : Prop :=
  ∀ s t : State, s.status.busy = false → step s = .next t → ¬ s.NextReset →
    (∀ v, s.NextCommand v → v = 0 ∨ v = 4) → SameEngine s t

/-- R32: `RESULT` changes only by a completion, a zero-length start, `CLEAR` or reset; the last three write 0. -/
def Obligations.ResultWrittenOnlyByCompletionClearReset : Prop :=
  ∀ s t : State, step s = .next t → t.result ≠ s.result →
    (s.NextEngine ∧ s.status.busy = true ∧ s.rem = 1 ∧ t.status.done = true ∧
      ∃ k, s.status.mode = some k ∧ t.result = packResult k t.c0 t.c1) ∨
    (t.result = 0 ∧ s.status.busy = false ∧ s.NextCommand 5) ∨
    (t.result = 0 ∧ s.status.busy = false ∧
      ∃ k : Kind, s.NextCommand (encode k.instr) ∧ StartPasses k s ∧ elementCount k s = 0) ∨
    (t.result = 0 ∧ s.NextReset)

/-- R165, R166: the line follows `STATUS` and `INTEN` in every state. It rises only in a step that sets `DONE` or `ERR`, or
in a write to `INTEN`; where a running command has no record (R44 (c)), it falls only by a command accepted while idle, a
write to `INTEN` or a reset. -/
def Obligations.IrqChangesOnlyByRecordEnableOrReset : Prop :=
  (∀ s : State, s.irq = true ↔
    (s.status.done = true ∧ s.inten.ieDone = true) ∨ (s.status.err = true ∧ s.inten.ieErr = true)) ∧
  (∀ s t : State, step s = .next t → s.irq = false → t.irq = true →
    (s.status.done = false ∧ t.status.done = true) ∨ (s.status.err = false ∧ t.status.err = true) ∨
    ∃ v, s.pending.head? = some (.write (regAddr s.platform .inten) 32 v)) ∧
  ∀ s t : State, (s.status.busy = true → s.status.done = false ∧ s.status.err = false) → step s = .next t →
    s.irq = true → t.irq = false →
    (s.status.busy = false ∧ ∃ v, s.NextCommand v ∧ v ≠ 0 ∧ v ≠ 4) ∨
    (∃ v, s.pending.head? = some (.write (regAddr s.platform .inten) 32 v)) ∨ s.NextReset

/-! ### Invariants -/

/-- R44: every step keeps the invariants, from every state that meets them, reached or not. -/
def Obligations.EveryStepKeepsTheInvariants : Prop :=
  ∀ s t : State, s.Inv → step s = .next t → t.Inv

/-- R44: the state after reset meets the invariants, on every platform, with every memory in canonical form and whatever
transitions are to come. -/
def Obligations.ResetMeetsTheInvariants : Prop :=
  ∀ (p : Platform) (m : Memory) (acts : List Action), m.wf →
    { State.reset with platform := p, mem := m, pending := acts }.Inv

/-- R44 (a) to (e), in the rule's own numbers, of every state that any number of steps reaches from reset, on every
platform, with every memory contents, under every interleaving of host, engine and reset. -/
def Obligations.EveryReachableStateMeetsR44 : Prop :=
  ∀ (p : Platform) (m : Memory) (acts : List Action) (n : Nat) (t : State), m.wf →
    Host.Core.run Sys2Proof.core n { State.reset with platform := p, mem := m, pending := acts } = .next t →
    (t.status.err = true ↔ t.status.ecode ≠ .none) ∧
    ¬ (t.status.done = true ∧ t.status.err = true) ∧
    (t.status.busy = true →
      t.status.done = false ∧ t.status.err = false ∧ t.status.ecode = .none ∧ 1 ≤ t.rem.toNat ∧
      (t.pad = true → t.status.mode = some .f32b) ∧
      ∃ k, t.status.mode = some k ∧ 1 ≤ t.blk.toNat ∧ t.blk.toNat ≤ blockLength k ∧
        let j := blockLength k - t.blk.toNat
        let m := modulus k
        t.c0.toNat ≤ (m - 1) + j * m ∧ 2 * t.c1.toNat ≤ 2 * (m - 1) + 2 * (j * (m - 1)) + m * (j * (j + 1)))

/-- R122, R134 with R106: in a running command no accumulator add ever reaches 2^32. -/
def Obligations.NoAccumulatorAddEverWraps : Prop :=
  ∀ (k : Kind) (s : State) (e : Element), s.Inv → s.status.busy = true → s.status.mode = some k →
    readElement k s = some e →
    s.c0.toNat + e.value.toNat < 2 ^ 32 ∧ s.c1.toNat + (s.c0.toNat + e.value.toNat) < 2 ^ 32

/-- From a state that meets the invariants a step never faults, and is refused exactly when it is a register access the
window does not decode (R51, R52): every command and every element step is answered. -/
def Obligations.InvariantStatesStopOnlyOnRefusedAccesses : Prop :=
  ∀ s : State, s.Inv →
    (∀ why, step s ≠ .fault why) ∧
    ((∃ why, step s = .refused why) ↔ ∃ act, s.pending.head? = some act ∧ ¬ act.wf s.platform.base)

/-! ### The checksum -/

/-- R111, with R112's step count: after the command's write and `j` element steps, `j` below the element count, the command
is still running and its accumulators are the sums reduced at the last block boundary plus the unreduced sums of the
elements since then. -/
def Obligations.IntermediateSumsAreReducedOnlyAtBlocks : Prop :=
  ∀ (k : Kind) (s : State) (j : Nat), Commanded k s → StartPasses k s → ReadableBytes s (byteCount k s) →
    j < elementCount k s →
    ∃ t, Host.Core.run Sys2Proof.core (j + 1) s = .next t ∧
      t.status.busy = true ∧ t.rem.toNat = elementCount k s - j ∧
      t.blk.toNat = blockLength k - j % blockLength k ∧ t.result = s.result ∧
      let e := inputElement k s
      let q := blockLength k * (j / blockLength k)
      let m := modulus k
      t.c0.toNat = (∑ i ∈ Finset.range q, e i) % m + ∑ i ∈ Finset.Ico q j, e i ∧
      t.c1.toNat = (∑ i ∈ Finset.range q, (q - i) * e i) % m + (j - q) * ((∑ i ∈ Finset.range q, e i) % m) +
        ∑ i ∈ Finset.Ico q j, (j - i) * e i

/-- R110, with R112's step count: a command that passes its checks over readable memory ends, after exactly its element
count of element steps, with the unblocked Fletcher sums. A zero-length command (R103) is the case of no element. -/
def Obligations.CompletedCommandGivesTheFletcherSums : Prop :=
  ∀ (k : Kind) (s : State), Commanded k s → StartPasses k s → ReadableBytes s (byteCount k s) →
    ∃ t, Host.Core.run Sys2Proof.core (elementCount k s + 1) s = .next t ∧
      t.status = { busy := false, done := true, err := false, ovr := false, ecode := .none, mode := some k } ∧
      let e := inputElement k s
      let n := elementCount k s
      t.c0.toNat = (∑ i ∈ Finset.range n, e i) % modulus k ∧
      t.c1.toNat = (∑ i ∈ Finset.range n, (n - i) * e i) % modulus k ∧
      t.result.toNat = t.c1.toNat * 2 ^ packShift k + t.c0.toNat ∧
      t.src = s.src ∧ t.len = s.len ∧ t.mem = s.mem

/-- R112 with R162: when the elements before element `j` are readable and element `j` is not, the command takes `j` element
steps and one more engine transition, which stops with `BUS` and leaves everything but the record. -/
def Obligations.BusErrorStopsAfterTheReadableElements : Prop :=
  ∀ (k : Kind) (s : State) (j : Nat), Commanded k s → StartPasses k s → j < elementCount k s →
    let w := if k = .f16 then 1 else 2
    ReadableBytes s (w * j) →
    (∃ a : Word, s.src.toNat + w * j ≤ a.toNat ∧ a.toNat < s.src.toNat + w * (j + 1) ∧
      a.toNat < s.src.toNat + byteCount k s ∧ s.memReadable a = false) →
    ∃ t, Host.Core.run Sys2Proof.core (j + 1) s = .next t ∧ t.status.busy = true ∧
      t.ptr.toNat = s.src.toNat + w * j ∧ t.result = s.result ∧
      Host.Core.run Sys2Proof.core (j + 2) s = .next { t with
        status := { busy := false, done := false, err := true, ovr := false, ecode := .bus, mode := some k } }

/-- R135: `F32B` with `LEN` = 2n and `F32W` with `LEN` = n, from the same state, agree after every step in `RESULT`, `C0`,
`C1`, `PTR`, `REM`, `BLK`, `PAD` and every field of `STATUS` but `MODE`: readable or not, passing the start checks or not. -/
def Obligations.ByteAndWordFormsAgreeOnEvenLengths : Prop :=
  ∀ (s : State) (n j : Nat), s.status.busy = false → 2 * n < 2 ^ 32 →
    ∃ a b,
      Host.Core.run Sys2Proof.core j { s with
        len := BitVec.ofNat 32 (2 * n), pending := [.write (regAddr s.platform .ctrl) 32 (encode .f32b)] } = .next a ∧
      Host.Core.run Sys2Proof.core j { s with
        len := BitVec.ofNat 32 n, pending := [.write (regAddr s.platform .ctrl) 32 (encode .f32w)] } = .next b ∧
      a.result = b.result ∧ a.c0 = b.c0 ∧ a.c1 = b.c1 ∧ a.ptr = b.ptr ∧ a.rem = b.rem ∧ a.blk = b.blk ∧ a.pad = b.pad ∧
      { a.status with mode := none } = { b.status with mode := none } ∧
      (1 ≤ j → a.status.mode = some .f32b ∧ b.status.mode = some .f32w)

/-- R136: an odd-length `F32B` and the `F32B` one byte longer, over the same bytes followed by a readable zero byte, agree
after every step in `STATUS`, `RESULT`, `C0` and `C1`. -/
def Obligations.OddLengthEqualsZeroPaddedLength : Prop :=
  ∀ (s : State) (j : Nat), s.status.busy = false → s.len.toNat % 2 = 1 → s.len.toNat + 1 < 2 ^ 32 →
    s.memReadable (s.src + s.len) = true → s.memByte (s.src + s.len) = 0 →
    ∃ a b,
      Host.Core.run Sys2Proof.core j { s with
        pending := [.write (regAddr s.platform .ctrl) 32 (encode .f32b)] } = .next a ∧
      Host.Core.run Sys2Proof.core j { s with
        len := s.len + 1, pending := [.write (regAddr s.platform .ctrl) 32 (encode .f32b)] } = .next b ∧
      a.status = b.status ∧ a.result = b.result ∧ a.c0 = b.c0 ∧ a.c1 = b.c1

/-- R113: two machines that agree on `SRC`, `LEN`, `WORD_ORDER` and the bytes of the buffer, and on nothing else, show the
same `C0` and `C1` after each step of the command and the same `RESULT` at its end. -/
def Obligations.InputBytesDetermineTheChecksum : Prop :=
  ∀ (k : Kind) (s u : State) (j : Nat), Commanded k s → Commanded k u → StartPasses k s →
    s.src = u.src → s.len = u.len → s.platform.wordOrder = u.platform.wordOrder →
    ReadableBytes s (byteCount k s) → ReadableBytes u (byteCount k u) →
    (∀ a : Word, s.src.toNat ≤ a.toNat → a.toNat < s.src.toNat + byteCount k s → s.memByte a = u.memByte a) →
    j ≤ elementCount k s →
    ∃ a b, Host.Core.run Sys2Proof.core (j + 1) s = .next a ∧ Host.Core.run Sys2Proof.core (j + 1) u = .next b ∧
      a.c0 = b.c0 ∧ a.c1 = b.c1 ∧ (j = elementCount k s → a.result = b.result)

/-- R187 with R41 and R42: host reads, and writes to any register but `CTRL`, do not disturb a running command: whatever
of them falls between the engine's turns, in whatever order, the engine ends as it does with the same number of turns
alone. -/
def Obligations.HostRegisterTrafficNeverDisturbsTheEngine : Prop :=
  ∀ (s t : State), (∀ act ∈ s.pending, Bystander s.platform act) →
    Host.Core.run Sys2Proof.core s.pending.length s = .next t →
    ∃ u, Host.Core.run Sys2Proof.core (s.pending.count .engine) { s with pending := [] } = .next u ∧
      SameEngine t u ∧ t.mem = u.mem
end

