-- ==== Sys2Proof/Laws/Decode.lean ====
section
/-! SUPPORT. What the decoder answers, said once: a word is a command exactly when it is that command's word, and illegal
exactly when it is 6 or more (30_encoding.md R71, R72, R74). -/

namespace Sys2Proof

theorem rsvField_toNat (v : Word) : (rsvField v).toNat = v.toNat / 16 := by
  have := v.isLt
  simp only [rsvField, BitVec.extractLsb'_toNat, Nat.shiftRight_eq_div_pow]
  omega

theorem opField_toNat (v : Word) : (opField v).toNat = v.toNat % 16 := by
  simp [opField, BitVec.extractLsb'_toNat]

theorem rsvField_eq_zero (v : Word) : rsvField v = 0 ↔ v.toNat < 16 := by
  rw [← BitVec.toNat_inj, rsvField_toNat]
  show v.toNat / 16 = 0 ↔ _
  omega

/-- The encoder's words (R71). -/
theorem encode_toNat (i : Instr) :
    (encode i).toNat = match i with | .nop => 0 | .f16 => 1 | .f32b => 2 | .f32w => 3 | .abort => 4 | .clear => 5 := by
  cases i <;> rfl

/-- The decoder by the word's number. -/
theorem decode_cases (v : Word) :
    (∃ i, decode v = .command i ∧ v = encode i) ∨ (∃ why, decode v = .illegal why ∧ 6 ≤ v.toNat) := by
  have hv : ∀ i, v.toNat = (encode i).toNat → v = encode i := fun i h => BitVec.eq_of_toNat_eq h
  by_cases hr : rsvField v = 0
  · have h16 := (rsvField_eq_zero v).1 hr
    have hop : (opField v).toNat = v.toNat := by rw [opField_toNat]; omega
    unfold decode
    rw [if_neg (not_not.2 hr)]
    split
    · next h => exact .inl ⟨.nop, rfl, hv _ (hop ▸ h)⟩
    · next h => exact .inl ⟨.f16, rfl, hv _ (hop ▸ h)⟩
    · next h => exact .inl ⟨.f32b, rfl, hv _ (hop ▸ h)⟩
    · next h => exact .inl ⟨.f32w, rfl, hv _ (hop ▸ h)⟩
    · next h => exact .inl ⟨.abort, rfl, hv _ (hop ▸ h)⟩
    · next h => exact .inl ⟨.clear, rfl, hv _ (hop ▸ h)⟩
    · next h0 h1 h2 h3 h4 h5 =>
      rw [hop] at h0 h1 h2 h3 h4 h5
      refine .inr ⟨.reservedOpcode, rfl, ?_⟩
      by_contra hlt
      have : v.toNat = 0 ∨ v.toNat = 1 ∨ v.toNat = 2 ∨ v.toNat = 3 ∨ v.toNat = 4 ∨ v.toNat = 5 := by omega
      rcases this with h | h | h | h | h | h
      exacts [h0 h, h1 h, h2 h, h3 h, h4 h, h5 h]
  · refine .inr ⟨.reservedBits, if_pos hr, ?_⟩
    have := mt (rsvField_eq_zero v).2 hr
    omega

/-- The decoder reads back what the encoder wrote. -/
theorem decode_encode (i : Instr) : decode (encode i) = .command i := by cases i <;> rfl

theorem eq_encode_of_decode {v : Word} {i : Instr} (h : decode v = .command i) : v = encode i := by
  rcases decode_cases v with ⟨j, hj, hv⟩ | ⟨why, hw, -⟩
  · rw [hj] at h; cases h; exact hv
  · rw [hw] at h; cases h

theorem illegal_toNat {v : Word} {why : IllegalWord} (h : decode v = .illegal why) : 6 ≤ v.toNat := by
  rcases decode_cases v with ⟨j, hj, -⟩ | ⟨_, -, hv⟩
  · rw [hj] at h; cases h
  · exact hv

theorem decode_of_ge {v : Word} (h : 6 ≤ v.toNat) : ∃ why, decode v = .illegal why := by
  rcases decode_cases v with ⟨j, -, hv⟩ | ⟨why, hw, -⟩
  · rw [hv, encode_toNat] at h
    cases j <;> simp at h
  · exact ⟨why, hw⟩

end Sys2Proof
end

