-- ==== Sys2Proof/Laws/State.lean ====
section
/-! SUPPORT. One lemma per field per update of State and of Status, each true by rfl, so that no later proof unfolds a
record update; the same for the shared effects made of them. -/

namespace Sys2Proof.Machine

/-! `withStatus` -/

section
variable (s : State) (x : Status)

@[simp] theorem withStatus_status : (s.withStatus x).status = x := rfl
@[simp] theorem withStatus_src : (s.withStatus x).src = s.src := rfl
@[simp] theorem withStatus_len : (s.withStatus x).len = s.len := rfl
@[simp] theorem withStatus_result : (s.withStatus x).result = s.result := rfl
@[simp] theorem withStatus_c0 : (s.withStatus x).c0 = s.c0 := rfl
@[simp] theorem withStatus_c1 : (s.withStatus x).c1 = s.c1 := rfl
@[simp] theorem withStatus_inten : (s.withStatus x).inten = s.inten := rfl
@[simp] theorem withStatus_ptr : (s.withStatus x).ptr = s.ptr := rfl
@[simp] theorem withStatus_rem : (s.withStatus x).rem = s.rem := rfl
@[simp] theorem withStatus_blk : (s.withStatus x).blk = s.blk := rfl
@[simp] theorem withStatus_pad : (s.withStatus x).pad = s.pad := rfl
@[simp] theorem withStatus_mem : (s.withStatus x).mem = s.mem := rfl
@[simp] theorem withStatus_platform : (s.withStatus x).platform = s.platform := rfl
@[simp] theorem withStatus_pending : (s.withStatus x).pending = s.pending := rfl
@[simp] theorem withStatus_returned : (s.withStatus x).returned = s.returned := rfl

end

/-! `withSrc` -/

section
variable (s : State) (x : Word)

@[simp] theorem withSrc_status : (s.withSrc x).status = s.status := rfl
@[simp] theorem withSrc_src : (s.withSrc x).src = x := rfl
@[simp] theorem withSrc_len : (s.withSrc x).len = s.len := rfl
@[simp] theorem withSrc_result : (s.withSrc x).result = s.result := rfl
@[simp] theorem withSrc_c0 : (s.withSrc x).c0 = s.c0 := rfl
@[simp] theorem withSrc_c1 : (s.withSrc x).c1 = s.c1 := rfl
@[simp] theorem withSrc_inten : (s.withSrc x).inten = s.inten := rfl
@[simp] theorem withSrc_ptr : (s.withSrc x).ptr = s.ptr := rfl
@[simp] theorem withSrc_rem : (s.withSrc x).rem = s.rem := rfl
@[simp] theorem withSrc_blk : (s.withSrc x).blk = s.blk := rfl
@[simp] theorem withSrc_pad : (s.withSrc x).pad = s.pad := rfl
@[simp] theorem withSrc_mem : (s.withSrc x).mem = s.mem := rfl
@[simp] theorem withSrc_platform : (s.withSrc x).platform = s.platform := rfl
@[simp] theorem withSrc_pending : (s.withSrc x).pending = s.pending := rfl
@[simp] theorem withSrc_returned : (s.withSrc x).returned = s.returned := rfl

end

/-! `withLen` -/

section
variable (s : State) (x : Word)

@[simp] theorem withLen_status : (s.withLen x).status = s.status := rfl
@[simp] theorem withLen_src : (s.withLen x).src = s.src := rfl
@[simp] theorem withLen_len : (s.withLen x).len = x := rfl
@[simp] theorem withLen_result : (s.withLen x).result = s.result := rfl
@[simp] theorem withLen_c0 : (s.withLen x).c0 = s.c0 := rfl
@[simp] theorem withLen_c1 : (s.withLen x).c1 = s.c1 := rfl
@[simp] theorem withLen_inten : (s.withLen x).inten = s.inten := rfl
@[simp] theorem withLen_ptr : (s.withLen x).ptr = s.ptr := rfl
@[simp] theorem withLen_rem : (s.withLen x).rem = s.rem := rfl
@[simp] theorem withLen_blk : (s.withLen x).blk = s.blk := rfl
@[simp] theorem withLen_pad : (s.withLen x).pad = s.pad := rfl
@[simp] theorem withLen_mem : (s.withLen x).mem = s.mem := rfl
@[simp] theorem withLen_platform : (s.withLen x).platform = s.platform := rfl
@[simp] theorem withLen_pending : (s.withLen x).pending = s.pending := rfl
@[simp] theorem withLen_returned : (s.withLen x).returned = s.returned := rfl

end

/-! `withResult` -/

section
variable (s : State) (x : Word)

@[simp] theorem withResult_status : (s.withResult x).status = s.status := rfl
@[simp] theorem withResult_src : (s.withResult x).src = s.src := rfl
@[simp] theorem withResult_len : (s.withResult x).len = s.len := rfl
@[simp] theorem withResult_result : (s.withResult x).result = x := rfl
@[simp] theorem withResult_c0 : (s.withResult x).c0 = s.c0 := rfl
@[simp] theorem withResult_c1 : (s.withResult x).c1 = s.c1 := rfl
@[simp] theorem withResult_inten : (s.withResult x).inten = s.inten := rfl
@[simp] theorem withResult_ptr : (s.withResult x).ptr = s.ptr := rfl
@[simp] theorem withResult_rem : (s.withResult x).rem = s.rem := rfl
@[simp] theorem withResult_blk : (s.withResult x).blk = s.blk := rfl
@[simp] theorem withResult_pad : (s.withResult x).pad = s.pad := rfl
@[simp] theorem withResult_mem : (s.withResult x).mem = s.mem := rfl
@[simp] theorem withResult_platform : (s.withResult x).platform = s.platform := rfl
@[simp] theorem withResult_pending : (s.withResult x).pending = s.pending := rfl
@[simp] theorem withResult_returned : (s.withResult x).returned = s.returned := rfl

end

/-! `withAcc` -/

section
variable (s : State) (x y : Word)

@[simp] theorem withAcc_status : (s.withAcc x y).status = s.status := rfl
@[simp] theorem withAcc_src : (s.withAcc x y).src = s.src := rfl
@[simp] theorem withAcc_len : (s.withAcc x y).len = s.len := rfl
@[simp] theorem withAcc_result : (s.withAcc x y).result = s.result := rfl
@[simp] theorem withAcc_c0 : (s.withAcc x y).c0 = x := rfl
@[simp] theorem withAcc_c1 : (s.withAcc x y).c1 = y := rfl
@[simp] theorem withAcc_inten : (s.withAcc x y).inten = s.inten := rfl
@[simp] theorem withAcc_ptr : (s.withAcc x y).ptr = s.ptr := rfl
@[simp] theorem withAcc_rem : (s.withAcc x y).rem = s.rem := rfl
@[simp] theorem withAcc_blk : (s.withAcc x y).blk = s.blk := rfl
@[simp] theorem withAcc_pad : (s.withAcc x y).pad = s.pad := rfl
@[simp] theorem withAcc_mem : (s.withAcc x y).mem = s.mem := rfl
@[simp] theorem withAcc_platform : (s.withAcc x y).platform = s.platform := rfl
@[simp] theorem withAcc_pending : (s.withAcc x y).pending = s.pending := rfl
@[simp] theorem withAcc_returned : (s.withAcc x y).returned = s.returned := rfl

end

/-! `withIntEn` -/

section
variable (s : State) (x : IntEn)

@[simp] theorem withIntEn_status : (s.withIntEn x).status = s.status := rfl
@[simp] theorem withIntEn_src : (s.withIntEn x).src = s.src := rfl
@[simp] theorem withIntEn_len : (s.withIntEn x).len = s.len := rfl
@[simp] theorem withIntEn_result : (s.withIntEn x).result = s.result := rfl
@[simp] theorem withIntEn_c0 : (s.withIntEn x).c0 = s.c0 := rfl
@[simp] theorem withIntEn_c1 : (s.withIntEn x).c1 = s.c1 := rfl
@[simp] theorem withIntEn_inten : (s.withIntEn x).inten = x := rfl
@[simp] theorem withIntEn_ptr : (s.withIntEn x).ptr = s.ptr := rfl
@[simp] theorem withIntEn_rem : (s.withIntEn x).rem = s.rem := rfl
@[simp] theorem withIntEn_blk : (s.withIntEn x).blk = s.blk := rfl
@[simp] theorem withIntEn_pad : (s.withIntEn x).pad = s.pad := rfl
@[simp] theorem withIntEn_mem : (s.withIntEn x).mem = s.mem := rfl
@[simp] theorem withIntEn_platform : (s.withIntEn x).platform = s.platform := rfl
@[simp] theorem withIntEn_pending : (s.withIntEn x).pending = s.pending := rfl
@[simp] theorem withIntEn_returned : (s.withIntEn x).returned = s.returned := rfl

end

/-! `withCursor` -/

section
variable (s : State) (x y z : Word)

@[simp] theorem withCursor_status : (s.withCursor x y z).status = s.status := rfl
@[simp] theorem withCursor_src : (s.withCursor x y z).src = s.src := rfl
@[simp] theorem withCursor_len : (s.withCursor x y z).len = s.len := rfl
@[simp] theorem withCursor_result : (s.withCursor x y z).result = s.result := rfl
@[simp] theorem withCursor_c0 : (s.withCursor x y z).c0 = s.c0 := rfl
@[simp] theorem withCursor_c1 : (s.withCursor x y z).c1 = s.c1 := rfl
@[simp] theorem withCursor_inten : (s.withCursor x y z).inten = s.inten := rfl
@[simp] theorem withCursor_ptr : (s.withCursor x y z).ptr = x := rfl
@[simp] theorem withCursor_rem : (s.withCursor x y z).rem = y := rfl
@[simp] theorem withCursor_blk : (s.withCursor x y z).blk = z := rfl
@[simp] theorem withCursor_pad : (s.withCursor x y z).pad = s.pad := rfl
@[simp] theorem withCursor_mem : (s.withCursor x y z).mem = s.mem := rfl
@[simp] theorem withCursor_platform : (s.withCursor x y z).platform = s.platform := rfl
@[simp] theorem withCursor_pending : (s.withCursor x y z).pending = s.pending := rfl
@[simp] theorem withCursor_returned : (s.withCursor x y z).returned = s.returned := rfl

end

/-! `withPad` -/

section
variable (s : State) (x : Bool)

@[simp] theorem withPad_status : (s.withPad x).status = s.status := rfl
@[simp] theorem withPad_src : (s.withPad x).src = s.src := rfl
@[simp] theorem withPad_len : (s.withPad x).len = s.len := rfl
@[simp] theorem withPad_result : (s.withPad x).result = s.result := rfl
@[simp] theorem withPad_c0 : (s.withPad x).c0 = s.c0 := rfl
@[simp] theorem withPad_c1 : (s.withPad x).c1 = s.c1 := rfl
@[simp] theorem withPad_inten : (s.withPad x).inten = s.inten := rfl
@[simp] theorem withPad_ptr : (s.withPad x).ptr = s.ptr := rfl
@[simp] theorem withPad_rem : (s.withPad x).rem = s.rem := rfl
@[simp] theorem withPad_blk : (s.withPad x).blk = s.blk := rfl
@[simp] theorem withPad_pad : (s.withPad x).pad = x := rfl
@[simp] theorem withPad_mem : (s.withPad x).mem = s.mem := rfl
@[simp] theorem withPad_platform : (s.withPad x).platform = s.platform := rfl
@[simp] theorem withPad_pending : (s.withPad x).pending = s.pending := rfl
@[simp] theorem withPad_returned : (s.withPad x).returned = s.returned := rfl

end

/-! `withMem` -/

section
variable (s : State) (x : Memory)

@[simp] theorem withMem_status : (s.withMem x).status = s.status := rfl
@[simp] theorem withMem_src : (s.withMem x).src = s.src := rfl
@[simp] theorem withMem_len : (s.withMem x).len = s.len := rfl
@[simp] theorem withMem_result : (s.withMem x).result = s.result := rfl
@[simp] theorem withMem_c0 : (s.withMem x).c0 = s.c0 := rfl
@[simp] theorem withMem_c1 : (s.withMem x).c1 = s.c1 := rfl
@[simp] theorem withMem_inten : (s.withMem x).inten = s.inten := rfl
@[simp] theorem withMem_ptr : (s.withMem x).ptr = s.ptr := rfl
@[simp] theorem withMem_rem : (s.withMem x).rem = s.rem := rfl
@[simp] theorem withMem_blk : (s.withMem x).blk = s.blk := rfl
@[simp] theorem withMem_pad : (s.withMem x).pad = s.pad := rfl
@[simp] theorem withMem_mem : (s.withMem x).mem = x := rfl
@[simp] theorem withMem_platform : (s.withMem x).platform = s.platform := rfl
@[simp] theorem withMem_pending : (s.withMem x).pending = s.pending := rfl
@[simp] theorem withMem_returned : (s.withMem x).returned = s.returned := rfl

end

/-! `withPending` -/

section
variable (s : State) (x : List Action)

@[simp] theorem withPending_status : (s.withPending x).status = s.status := rfl
@[simp] theorem withPending_src : (s.withPending x).src = s.src := rfl
@[simp] theorem withPending_len : (s.withPending x).len = s.len := rfl
@[simp] theorem withPending_result : (s.withPending x).result = s.result := rfl
@[simp] theorem withPending_c0 : (s.withPending x).c0 = s.c0 := rfl
@[simp] theorem withPending_c1 : (s.withPending x).c1 = s.c1 := rfl
@[simp] theorem withPending_inten : (s.withPending x).inten = s.inten := rfl
@[simp] theorem withPending_ptr : (s.withPending x).ptr = s.ptr := rfl
@[simp] theorem withPending_rem : (s.withPending x).rem = s.rem := rfl
@[simp] theorem withPending_blk : (s.withPending x).blk = s.blk := rfl
@[simp] theorem withPending_pad : (s.withPending x).pad = s.pad := rfl
@[simp] theorem withPending_mem : (s.withPending x).mem = s.mem := rfl
@[simp] theorem withPending_platform : (s.withPending x).platform = s.platform := rfl
@[simp] theorem withPending_pending : (s.withPending x).pending = x := rfl
@[simp] theorem withPending_returned : (s.withPending x).returned = s.returned := rfl

end

/-! `withReturned` -/

section
variable (s : State) (x : HostRead)

@[simp] theorem withReturned_status : (s.withReturned x).status = s.status := rfl
@[simp] theorem withReturned_src : (s.withReturned x).src = s.src := rfl
@[simp] theorem withReturned_len : (s.withReturned x).len = s.len := rfl
@[simp] theorem withReturned_result : (s.withReturned x).result = s.result := rfl
@[simp] theorem withReturned_c0 : (s.withReturned x).c0 = s.c0 := rfl
@[simp] theorem withReturned_c1 : (s.withReturned x).c1 = s.c1 := rfl
@[simp] theorem withReturned_inten : (s.withReturned x).inten = s.inten := rfl
@[simp] theorem withReturned_ptr : (s.withReturned x).ptr = s.ptr := rfl
@[simp] theorem withReturned_rem : (s.withReturned x).rem = s.rem := rfl
@[simp] theorem withReturned_blk : (s.withReturned x).blk = s.blk := rfl
@[simp] theorem withReturned_pad : (s.withReturned x).pad = s.pad := rfl
@[simp] theorem withReturned_mem : (s.withReturned x).mem = s.mem := rfl
@[simp] theorem withReturned_platform : (s.withReturned x).platform = s.platform := rfl
@[simp] theorem withReturned_pending : (s.withReturned x).pending = s.pending := rfl
@[simp] theorem withReturned_returned : (s.withReturned x).returned = x :: s.returned := rfl

end

/-! `Status.cleared` -/

section
variable (st : Status) 

@[simp] theorem status_cleared_busy : (st.cleared).busy = st.busy := rfl
@[simp] theorem status_cleared_done : (st.cleared).done = false := rfl
@[simp] theorem status_cleared_err : (st.cleared).err = false := rfl
@[simp] theorem status_cleared_ovr : (st.cleared).ovr = false := rfl
@[simp] theorem status_cleared_ecode : (st.cleared).ecode = .none := rfl
@[simp] theorem status_cleared_mode : (st.cleared).mode = st.mode := rfl

end

/-! `Status.stopped` -/

section
variable (st : Status) (c : ECode)

@[simp] theorem status_stopped_busy : (st.stopped c).busy = false := rfl
@[simp] theorem status_stopped_done : (st.stopped c).done = false := rfl
@[simp] theorem status_stopped_err : (st.stopped c).err = true := rfl
@[simp] theorem status_stopped_ovr : (st.stopped c).ovr = st.ovr := rfl
@[simp] theorem status_stopped_ecode : (st.stopped c).ecode = c := rfl
@[simp] theorem status_stopped_mode : (st.stopped c).mode = st.mode := rfl

end

/-! `Status.overrun` -/

section
variable (st : Status) 

@[simp] theorem status_overrun_busy : (st.overrun).busy = st.busy := rfl
@[simp] theorem status_overrun_done : (st.overrun).done = st.done := rfl
@[simp] theorem status_overrun_err : (st.overrun).err = st.err := rfl
@[simp] theorem status_overrun_ovr : (st.overrun).ovr = true := rfl
@[simp] theorem status_overrun_ecode : (st.overrun).ecode = st.ecode := rfl
@[simp] theorem status_overrun_mode : (st.overrun).mode = st.mode := rfl

end

/-! `Status.withMode` -/

section
variable (st : Status) (m : Option Kind)

@[simp] theorem status_withMode_busy : (st.withMode m).busy = st.busy := rfl
@[simp] theorem status_withMode_done : (st.withMode m).done = st.done := rfl
@[simp] theorem status_withMode_err : (st.withMode m).err = st.err := rfl
@[simp] theorem status_withMode_ovr : (st.withMode m).ovr = st.ovr := rfl
@[simp] theorem status_withMode_ecode : (st.withMode m).ecode = st.ecode := rfl
@[simp] theorem status_withMode_mode : (st.withMode m).mode = m := rfl

end

/-! `Status.running` -/

section
variable (st : Status) 

@[simp] theorem status_running_busy : (st.running).busy = true := rfl
@[simp] theorem status_running_done : (st.running).done = st.done := rfl
@[simp] theorem status_running_err : (st.running).err = st.err := rfl
@[simp] theorem status_running_ovr : (st.running).ovr = st.ovr := rfl
@[simp] theorem status_running_ecode : (st.running).ecode = st.ecode := rfl
@[simp] theorem status_running_mode : (st.running).mode = st.mode := rfl

end

/-! `Status.completed` -/

section
variable (st : Status) 

@[simp] theorem status_completed_busy : (st.completed).busy = false := rfl
@[simp] theorem status_completed_done : (st.completed).done = true := rfl
@[simp] theorem status_completed_err : (st.completed).err = st.err := rfl
@[simp] theorem status_completed_ovr : (st.completed).ovr = st.ovr := rfl
@[simp] theorem status_completed_ecode : (st.completed).ecode = st.ecode := rfl
@[simp] theorem status_completed_mode : (st.completed).mode = st.mode := rfl

end

end Sys2Proof.Machine
end

