-- ==== Sys2Proof/Laws/Commands.lean ====
section
/-! SUPPORT. What a command does when it is written (40_engine_common.md R100 to R103), said once per shared operation. -/

namespace Sys2Proof.Machine

/-- Dropped while busy, accepted after the status clear while idle (R100). -/
theorem acceptOrDrop_busy (f : State → State) {s : State} (h : s.status.busy = true) :
    acceptOrDrop f s = dropCommand s := by simp [acceptOrDrop, h]

theorem acceptOrDrop_idle (f : State → State) {s : State} (h : s.status.busy = false) :
    acceptOrDrop f s = f (statusClear s) := by simp [acceptOrDrop, h]

/-- What the start checks answer (R102, R163). -/
theorem startError_cases (k : Kind) (o : LengthOperands) (src : Word) :
    (startError k o src = some .align ∧ wideElements k = true ∧ src.toNat % 2 = 1) ∨
    (startError k o src = some .length ∧ (wideElements k = true → src.toNat % 2 = 0) ∧ 2 ^ 32 < src.toNat + o.nbytes) ∨
    (startError k o src = none ∧ (wideElements k = true → src.toNat % 2 = 0) ∧ src.toNat + o.nbytes ≤ 2 ^ 32) := by
  have hb : src.getLsbD 0 = decide (src.toNat % 2 = 1) := by
    simp [BitVec.getLsbD, Nat.testBit_zero]
  unfold startError
  rw [hb]
  cases hw : wideElements k
  · simp only [Bool.false_and, Bool.false_eq_true, if_false]
    split
    · next h => exact .inr (.inl ⟨rfl, by simp, h⟩)
    · next h => exact .inr (.inr ⟨rfl, by simp, by omega⟩)
  · simp only [Bool.true_and, decide_eq_true_eq]
    split
    · next h => exact .inl ⟨rfl, by trivial, h⟩
    · next h0 =>
      have h0' : src.toNat % 2 = 0 := by omega
      split
      · next h => exact .inr (.inl ⟨rfl, fun _ => h0', h⟩)
      · next h => exact .inr (.inr ⟨rfl, fun _ => h0', by omega⟩)

/-- A start ends in one of three ways: an error stop, a zero-length completion, or a running command (R102, R103). -/
theorem start_cases (k : Kind) (o : LengthOperands) (s : State) :
    (∃ code, startError k o s.src = some code ∧
      start k o s = errorStop code (s.withStatus (s.status.withMode (some k)))) ∨
    (startError k o s.src = none ∧ o.nelem = 0 ∧
      start k o s = zeroLengthComplete (loadOperands k o (s.withStatus (s.status.withMode (some k))))) ∨
    (startError k o s.src = none ∧ o.nelem ≠ 0 ∧
      start k o s = (loadOperands k o (s.withStatus (s.status.withMode (some k)))).withStatus
        (s.status.withMode (some k)).running) := by
  unfold start
  split
  · next code h => exact .inl ⟨code, h, rfl⟩
  · next h =>
    by_cases hn : o.nelem = 0
    · exact .inr (.inl ⟨h, hn, by simp [hn]⟩)
    · exact .inr (.inr ⟨h, hn, by simp [hn, loadOperands]⟩)

/-- A start leaves everything but the engine's own registers (10_state.md R45). -/
theorem start_frame (k : Kind) (o : LengthOperands) (s : State) :
    (start k o s).src = s.src ∧ (start k o s).len = s.len ∧ (start k o s).inten = s.inten ∧
    (start k o s).mem = s.mem ∧ (start k o s).platform = s.platform ∧ (start k o s).pending = s.pending ∧
    (start k o s).returned = s.returned ∧ (start k o s).status.mode = some k ∧
    (start k o s).status.ovr = s.status.ovr := by
  rcases start_cases k o s with ⟨c, -, h⟩ | ⟨-, -, h⟩ | ⟨-, -, h⟩ <;> rw [h] <;>
    simp [errorStop, zeroLengthComplete, loadOperands]

/-- Every compute command is a start behind R100's frame. -/
theorem exec_kind (k : Kind) (s : State) :
    exec k.instr s = .next (acceptOrDrop (start k (lengthOperands k s.len)) s) := by
  cases k <;> rfl

/-- Every command answers a next state. -/
theorem exec_next (i : Instr) (s : State) : ∃ t, exec i s = .next t := by
  cases i <;> exact ⟨_, rfl⟩

/-- Every command is a compute command or one of the three control commands. -/
theorem instr_cases (i : Instr) : i = .nop ∨ i = .abort ∨ i = .clear ∨ ∃ k : Kind, i = k.instr := by
  cases i
  · exact .inl rfl
  · exact .inr (.inr (.inr ⟨.f16, rfl⟩))
  · exact .inr (.inr (.inr ⟨.f32b, rfl⟩))
  · exact .inr (.inr (.inr ⟨.f32w, rfl⟩))
  · exact .inr (.inl rfl)
  · exact .inr (.inr (.inl rfl))

/-- Everything a command that answers the next state `t` can have done (R100). -/
inductive CommandCase (i : Instr) (s t : State) : Prop
  /-- No effect: `NOP`, or `ABORT` while idle (R150, R151). -/
  | noEffect (which : i = .nop ∨ (i = .abort ∧ s.status.busy = false)) (result : t = s)
  /-- `ABORT` while busy (R151). -/
  | aborted (which : i = .abort) (busy : s.status.busy = true) (result : t = errorStop .aborted s)
  /-- Any other command while busy (R100). -/
  | dropped (notNop : i ≠ .nop) (notAbort : i ≠ .abort) (busy : s.status.busy = true) (result : t = dropCommand s)
  /-- `CLEAR` while idle (R152). -/
  | cleared (which : i = .clear) (idle : s.status.busy = false) (result : t = clearRecord (statusClear s))
  /-- A compute command while idle (R102). -/
  | started (k : Kind) (which : i = k.instr) (idle : s.status.busy = false)
      (result : t = start k (lengthOperands k s.len) (statusClear s))

/-- The inversion lemma of `exec`. -/
theorem exec_cases {i : Instr} {s t : State} (h : exec i s = .next t) : CommandCase i s t := by
  rcases instr_cases i with rfl | rfl | rfl | ⟨k, rfl⟩
  · cases h; exact .noEffect (.inl rfl) rfl
  · cases h
    by_cases hb : s.status.busy = true
    · exact .aborted rfl hb (by simp [hb])
    · exact .noEffect (.inr ⟨rfl, by simpa using hb⟩) (by simp [hb])
  · cases h
    by_cases hb : s.status.busy = true
    · exact .dropped (by decide) (by decide) hb (acceptOrDrop_busy _ hb)
    · exact .cleared rfl (by simpa using hb) (acceptOrDrop_idle _ (by simpa using hb))
  · rw [exec_kind] at h
    cases h
    by_cases hb : s.status.busy = true
    · exact .dropped (by cases k <;> decide) (by cases k <;> decide) hb (acceptOrDrop_busy _ hb)
    · exact .started k rfl (by simpa using hb) (acceptOrDrop_idle _ (by simpa using hb))

/-- What any command leaves as it was (10_state.md R45). -/
theorem exec_frame {i : Instr} {s t : State} (h : exec i s = .next t) :
    t.src = s.src ∧ t.len = s.len ∧ t.inten = s.inten ∧ t.mem = s.mem ∧ t.platform = s.platform ∧
    t.pending = s.pending ∧ t.returned = s.returned := by
  rcases instr_cases i with rfl | rfl | rfl | ⟨k, rfl⟩
  · cases h; simp
  · cases h; split <;> simp [errorStop]
  · cases h
    unfold acceptOrDrop
    split <;> simp [dropCommand, clearRecord, statusClear]
  · rw [exec_kind] at h
    cases h
    unfold acceptOrDrop
    split
    · simp [dropCommand]
    · have := start_frame k (lengthOperands k s.len) (statusClear s)
      simp only [statusClear, withStatus_src, withStatus_len, withStatus_inten, withStatus_mem, withStatus_platform,
        withStatus_pending, withStatus_returned] at this
      exact ⟨this.1, this.2.1, this.2.2.1, this.2.2.2.1, this.2.2.2.2.1, this.2.2.2.2.2.1, this.2.2.2.2.2.2.1⟩

end Sys2Proof.Machine
end

