-- ==== Sys2Proof/Laws/Engine.lean ====
section
/-! SUPPORT. What one element step does, said once (40_engine_common.md R104 to R108): the bus stop, or the accumulated
element with the cursor moved, reduced at the end of a block or of the input, completed at the end of the input. -/

namespace Sys2Proof.Machine

theorem modulus_pos (k : Kind) : 0 < modulus k := by cases k <;> decide

theorem modulus_lt (k : Kind) : modulus k < 2 ^ 16 := by cases k <;> decide

theorem blockLength_pos (k : Kind) : 0 < blockLength k := by cases k <;> decide

theorem reduceWord_toNat (k : Kind) (c : Word) : (reduceWord k c).toNat = c.toNat % modulus k := by
  have := Nat.mod_lt c.toNat (modulus_pos k)
  have := modulus_lt k
  simp only [reduceWord, BitVec.toNat_ofNat]
  omega

theorem sub_one_eq_zero (v : Word) : v - 1 = 0 ↔ v = 1 := by
  constructor <;> intro h <;> bv_omega

/-- The element step that cannot read its element (R105, R162). -/
theorem elementStep_bus {k : Kind} {s : State} (h : readElement k s = none) : elementStep k s = errorStop .bus s := by
  simp [elementStep, h]

/-- The last element of the input: accumulated, reduced, completed (R104, R107, R108). -/
theorem elementStep_last {k : Kind} {s : State} {e : Element} (h : readElement k s = some e) (hr : s.rem = 1) :
    elementStep k s = complete k (reduce k (advance e.bytes (accumulate e.value s))) := by
  simp [elementStep, h, closeElement, advance, accumulate, hr]

/-- The last element of a block but not of the input: accumulated and reduced (R104, R107). -/
theorem elementStep_block {k : Kind} {s : State} {e : Element} (h : readElement k s = some e) (hr : s.rem ≠ 1)
    (hb : s.blk = 1) : elementStep k s = reduce k (advance e.bytes (accumulate e.value s)) := by
  have hr' : s.rem - 1 ≠ 0 := fun h => hr ((sub_one_eq_zero _).1 h)
  simp [elementStep, h, closeElement, advance, accumulate, hb]
  intro h; exact absurd h hr'

/-- An element inside a block: accumulated (R104). -/
theorem elementStep_inner {k : Kind} {s : State} {e : Element} (h : readElement k s = some e) (hr : s.rem ≠ 1)
    (hb : s.blk ≠ 1) : elementStep k s = advance e.bytes (accumulate e.value s) := by
  have hr' : s.rem - 1 ≠ 0 := fun h => hr ((sub_one_eq_zero _).1 h)
  have hb' : s.blk - 1 ≠ 0 := fun h => hb ((sub_one_eq_zero _).1 h)
  simp only [elementStep, h, closeElement, advance, withCursor_blk, withCursor_rem, accumulate, withAcc_blk, withAcc_rem,
    hr', hb', or_self, if_false]

/-- Every element step is one of the four. -/
theorem elementStep_cases (k : Kind) (s : State) :
    (readElement k s = none ∧ elementStep k s = errorStop .bus s) ∨
    ∃ e, readElement k s = some e ∧
      ((s.rem = 1 ∧ elementStep k s = complete k (reduce k (advance e.bytes (accumulate e.value s)))) ∨
       (s.rem ≠ 1 ∧ s.blk = 1 ∧ elementStep k s = reduce k (advance e.bytes (accumulate e.value s))) ∨
       (s.rem ≠ 1 ∧ s.blk ≠ 1 ∧ elementStep k s = advance e.bytes (accumulate e.value s))) := by
  cases h : readElement k s with
  | none => exact .inl ⟨rfl, elementStep_bus h⟩
  | some e =>
    refine .inr ⟨e, rfl, ?_⟩
    by_cases hr : s.rem = 1
    · exact .inl ⟨hr, elementStep_last h hr⟩
    · by_cases hb : s.blk = 1
      · exact .inr (.inl ⟨hr, hb, elementStep_block h hr hb⟩)
      · exact .inr (.inr ⟨hr, hb, elementStep_inner h hr hb⟩)

/-- The engine writes only its own registers (10_state.md R45): the rest is as before. -/
theorem elementStep_frame (k : Kind) (s : State) :
    (elementStep k s).src = s.src ∧ (elementStep k s).len = s.len ∧ (elementStep k s).inten = s.inten ∧
    (elementStep k s).mem = s.mem ∧ (elementStep k s).platform = s.platform ∧
    (elementStep k s).pending = s.pending ∧ (elementStep k s).returned = s.returned ∧
    (elementStep k s).pad = s.pad ∧ (elementStep k s).status.mode = s.status.mode ∧
    (elementStep k s).status.ovr = s.status.ovr := by
  rcases elementStep_cases k s with ⟨-, h⟩ | ⟨e, -, ⟨-, h⟩ | ⟨-, -, h⟩ | ⟨-, -, h⟩⟩ <;> rw [h] <;>
    simp [errorStop, complete, reduce, advance, accumulate]

/-- What the engine's turn does (R104, R172). -/
theorem engineTurn_cases {s t : State} (h : engineTurn s = .next t) :
    (s.status.busy = false ∧ t = s) ∨
    (s.status.busy = true ∧ ∃ k, s.status.mode = some k ∧ t = elementStep k s) := by
  unfold engineTurn at h
  split at h
  · next hb =>
    unfold engineStep at h
    split at h
    · cases h
    · next k hk => cases h; exact .inr ⟨hb, k, hk, rfl⟩
  · next hb => cases h; exact .inl ⟨by simpa using hb, rfl⟩

end Sys2Proof.Machine
end

