-- ==== Sys2Proof/Laws/Memory.lean ====
section
/-! SUPPORT. Data memory: read after write, the canonical form kept by every operation, equal readings are equal data, and
every contents of the address space is some memory in canonical form (log entry 7). -/

namespace Sys2Proof.Machine

theorem put_read_self (m : Memory) (x : Nat) (v : Byte) (h : ∀ c ∈ m, x < c.1) :
    (Memory.put x v m).read x = v := by
  unfold Memory.put
  split
  · subst v
    cases m with
    | nil => rfl
    | cons c m =>
      have hx : ∀ (l : Memory), (∀ c ∈ l, x < c.1) → l.read x = Memory.unlisted := by
        intro l
        induction l with
        | nil => intro _; rfl
        | cons d l ih =>
          intro hl
          have hd : x < d.1 := hl d (by simp)
          have : x ≠ d.1 := by omega
          simp only [Memory.read, this, if_false]
          exact ih fun c hc => hl c (by simp [hc])
      exact hx _ h
  · simp [Memory.read]

theorem put_read_other (m : Memory) (x y : Nat) (v : Byte) (h : y ≠ x) :
    (Memory.put x v m).read y = m.read y := by
  unfold Memory.put
  split
  · rfl
  · simp [Memory.read, h]

/-- An address below every entry reads as unlisted. -/
theorem read_below (m : Memory) (x : Nat) (h : ∀ c ∈ m, x < c.1) : m.read x = Memory.unlisted := by
  have := put_read_self m x Memory.unlisted h
  simpa [Memory.put] using this

theorem wf_tail {c : Host.Cell} {m : Memory} (h : Memory.wf (c :: m)) : Memory.wf m := by
  obtain ⟨hp, hc⟩ := h
  exact ⟨(List.pairwise_cons.1 hp).2, fun d hd => hc d (by simp [hd])⟩

theorem wf_head {c : Host.Cell} {m : Memory} (h : Memory.wf (c :: m)) : ∀ d ∈ m, c.1 < d.1 :=
  (List.pairwise_cons.1 h.1).1

/-- A write is read back, and every other address reads as before. -/
theorem read_write (m : Memory) (hm : m.wf) (x y : Nat) (v : Byte) :
    (m.write x v).read y = if y = x then v else m.read y := by
  induction m with
  | nil =>
    simp only [Memory.write]
    split
    · next h => subst h; exact put_read_self [] y v (by simp)
    · next h => exact put_read_other [] x y v h
  | cons c m ih =>
    obtain ⟨a, b⟩ := c
    have htail := wf_tail hm
    have hhead := wf_head hm
    simp only [Memory.write]
    split
    · next hlt =>
      split
      · next h =>
        subst h
        refine put_read_self _ y v fun c hc => ?_
        rcases List.mem_cons.1 hc with rfl | hc
        · exact hlt
        · exact Nat.lt_trans hlt (hhead c hc)
      · next h => exact put_read_other _ x y v h
    · next hlt =>
      split
      · next hxa =>
        subst hxa
        split
        · next h => subst h; exact put_read_self m y v hhead
        · next h => rw [put_read_other m x y v h]; simp [Memory.read, h]
      · next hxa =>
        simp only [Memory.read, ih htail]
        split
        · next h =>
          have : y ≠ x := by omega
          simp [this]
        · rfl

/-- Every address a write lists was listed before or is the address written. -/
theorem mem_write {m : Memory} {x : Nat} {v : Byte} {c : Host.Cell} (h : c ∈ m.write x v) :
    c ∈ m ∨ (c = (x, v) ∧ v ≠ Memory.unlisted) := by
  induction m with
  | nil =>
    simp only [Memory.write, Memory.put] at h
    split at h
    · simp at h
    · next hv => simp at h; exact .inr ⟨h, hv⟩
  | cons d m ih =>
    obtain ⟨a, b⟩ := d
    simp only [Memory.write, Memory.put] at h
    split at h
    · split at h
      · exact .inl h
      · next hv =>
        rcases List.mem_cons.1 h with h | h
        · exact .inr ⟨h, hv⟩
        · exact .inl h
    · split at h
      · split at h
        · exact .inl (by simp [h])
        · next hv =>
          rcases List.mem_cons.1 h with h | h
          · exact .inr ⟨h, hv⟩
          · exact .inl (by simp [h])
      · rcases List.mem_cons.1 h with h | h
        · exact .inl (by simp [h])
        · rcases ih h with h | h
          · exact .inl (by simp [h])
          · exact .inr h

/-- A write keeps the canonical form. -/
theorem write_wf (m : Memory) (hm : m.wf) (x : Nat) (hx : x < 2 ^ 32) (v : Byte) : (m.write x v).wf := by
  refine ⟨?_, fun c hc => ?_⟩
  · induction m with
    | nil => simp only [Memory.write, Memory.put]; split <;> simp
    | cons d m ih =>
      obtain ⟨a, b⟩ := d
      have htail := wf_tail hm
      have hhead := wf_head hm
      simp only [Memory.write, Memory.put]
      split
      · next hlt =>
        split
        · exact hm.1
        · refine List.pairwise_cons.2 ⟨fun c hc => ?_, hm.1⟩
          rcases List.mem_cons.1 hc with rfl | hc
          · exact hlt
          · exact Nat.lt_trans hlt (hhead c hc)
      · split
        · next hxa =>
          subst hxa
          split
          · exact htail.1
          · exact List.pairwise_cons.2 ⟨hhead, htail.1⟩
        · refine List.pairwise_cons.2 ⟨fun c hc => ?_, ih htail⟩
          rcases mem_write hc with hc | ⟨rfl, -⟩
          · exact hhead c hc
          · show a < x
            omega
  · rcases mem_write hc with hc | ⟨rfl, hv⟩
    · exact hm.2 c hc
    · exact ⟨hx, hv⟩

/-- Memory with nothing listed has the canonical form. -/
theorem nil_wf : Memory.wf [] := by simp [Memory.wf]

/-- Equal memories are equal data: two memories in canonical form that read the same everywhere are the same list. -/
theorem eq_of_read_eq (m n : Memory) (hm : m.wf) (hn : n.wf) (h : ∀ x, m.read x = n.read x) : m = n := by
  induction m generalizing n with
  | nil =>
    cases n with
    | nil => rfl
    | cons c n =>
      have := h c.1
      simp only [Memory.read, if_true] at this
      exact absurd this.symm (hn.2 c (by simp)).2
  | cons c m ih =>
    cases n with
    | nil =>
      have := h c.1
      simp only [Memory.read, if_true] at this
      exact absurd this (hm.2 c (by simp)).2
    | cons d n =>
      have key : ∀ (c d : Host.Cell) (m n : Memory), Memory.wf (c :: m) → Memory.wf (d :: n) →
          (∀ x, Memory.read (c :: m) x = Memory.read (d :: n) x) → d.1 ≤ c.1 := by
        intro c d m n hm hn h
        by_contra hlt
        have hr := h c.1
        rw [read_below (d :: n) c.1 (fun e he => by
          rcases List.mem_cons.1 he with rfl | he
          · omega
          · have := wf_head hn e he; omega)] at hr
        simp only [Memory.read, if_true] at hr
        exact (hm.2 c (by simp)).2 hr
      have hcd : c.1 = d.1 :=
        Nat.le_antisymm (key d c n m hn hm fun x => (h x).symm) (key c d m n hm hn h)
      have hb : c.2 = d.2 := by
        have := h c.1
        simpa [Memory.read, hcd] using this
      have htail : m = n := by
        refine ih n (wf_tail hm) (wf_tail hn) fun x => ?_
        by_cases hx : x = c.1
        · subst hx
          rw [read_below m c.1 (wf_head hm), read_below n c.1 (hcd ▸ wf_head hn)]
        · have := h x
          simpa [Memory.read, hx, hcd ▸ hx] using this
      rw [htail, Prod.ext hcd hb]

/-- Every contents of data memory is the reading of some memory in canonical form, so a claim about every State is a claim
about every contents. -/
theorem exists_memory (f : Nat → Byte) :
    ∃ m : Memory, m.wf ∧ ∀ x < 2 ^ 32, m.read x = f x := by
  have step : ∀ n ≤ 2 ^ 32, ∃ m : Memory, m.wf ∧ ∀ x < n, m.read x = f x := by
    intro n
    induction n with
    | zero => exact fun _ => ⟨[], nil_wf, fun x hx => absurd hx (by omega)⟩
    | succ n ih =>
      intro hn
      obtain ⟨m, hm, hr⟩ := ih (by omega)
      refine ⟨m.write n (f n), write_wf m hm n (by omega) _, fun x hx => ?_⟩
      rw [read_write m hm]
      split
      · next h => rw [h]
      · exact hr x (by omega)
  exact step _ (Nat.le_refl _)

end Sys2Proof.Machine
end

