-- ==== Sys2Proof/Laws/PerInstr.lean ====
section
/-! SUPPORT. One statement per command, for claims about every command: its word decodes back to it, its reserved bits are
0, and its opcode is below 6 (30_encoding.md R70, R71). -/

namespace Sys2Proof.Laws.RoundTrip

/-- What is said of each command. -/
def Statement (i : Instr) : Prop :=
  decode (encode i) = .command i ∧ rsvField (encode i) = 0 ∧ (encode i).toNat = (opcode i).toNat ∧ i.wf = true

theorem nop : Statement .nop := ⟨rfl, rfl, rfl, rfl⟩
theorem f16 : Statement .f16 := ⟨rfl, rfl, rfl, rfl⟩
theorem f32b : Statement .f32b := ⟨rfl, rfl, rfl, rfl⟩
theorem f32w : Statement .f32w := ⟨rfl, rfl, rfl, rfl⟩
theorem abort : Statement .abort := ⟨rfl, rfl, rfl, rfl⟩
theorem clear : Statement .clear := ⟨rfl, rfl, rfl, rfl⟩

end Sys2Proof.Laws.RoundTrip
end

