-- ==== Sys2Proof/Laws/Platform.lean ====
section
/-! SUPPORT. `MemReadable` as a list of regions is exact: every total function of a 32-bit address is some list of regions
(log entry 6). -/

namespace Sys2Proof.Machine

/-- Every map `MemReadable` can be is the map of some list of regions (00_scope.md R7). -/
theorem exists_readable_regions (f : Word → Bool) :
    ∃ l : List Region, ∀ p : Platform, p.readable = l → ∀ a, platformReadable p a = f a := by
  have step : ∀ n ≤ 2 ^ 32, ∃ l : List Region, ∀ a : Word,
      l.any (fun r => regionCovers r a) = (decide (a.toNat < n) && f a) := by
    intro n
    induction n with
    | zero => exact fun _ => ⟨[], fun a => by simp⟩
    | succ n ih =>
      intro hn
      obtain ⟨l, hl⟩ := ih (by omega)
      let x : Word := BitVec.ofNat 32 n
      have hx : x.toNat = n := by simp only [x, BitVec.toNat_ofNat]; omega
      refine ⟨if f x then ⟨x, x⟩ :: l else l, fun a => ?_⟩
      have hself : regionCovers ⟨x, x⟩ a = decide (a = x) := by
        rw [regionCovers, ← Bool.decide_and, decide_eq_decide, BitVec.le_def, BitVec.le_def, ← BitVec.toNat_inj]
        show (x.toNat ≤ a.toNat ∧ a.toNat ≤ x.toNat) ↔ _
        omega
      by_cases hax : a = x
      · subst hax
        cases hf : f x with
        | true => simp [hself, hx]
        | false => simp [hl, hx, hf]
      · have hne : a.toNat ≠ n := fun h => hax (BitVec.eq_of_toNat_eq (h.trans hx.symm))
        have hlt : (a.toNat < n + 1) ↔ a.toNat < n := by omega
        cases hf : f x with
        | true => simp [hself, hax, hl, hlt]
        | false => simp [hl, hlt]
  obtain ⟨l, hl⟩ := step _ (Nat.le_refl _)
  refine ⟨l, fun p hp a => ?_⟩
  have := hl a
  simpa [platformReadable, hp, a.isLt] using this

end Sys2Proof.Machine
end

