-- ==== Sys2Proof/Laws/Step.lean ====
section
/-! SUPPORT. Everything one step can do, said once (00_scope.md R9): invariants and whole-machine rules are derived from
`step_cases` instead of unfolding the step again. -/

namespace Sys2Proof.Machine

/-- The accesses the window decodes: 32 bits at a register's address (20_memory.md R51, R52). -/
theorem busRegister_ok {p : Platform} {addr width : Nat} {r : Reg} :
    busRegister p addr width = .ok r ↔ width = 32 ∧ addr = regAddr p r := by
  unfold busRegister
  constructor
  · intro h
    split at h
    · cases h
    · next hw =>
      split at h
      · cases h
      · next hin =>
        refine ⟨by simpa using hw, ?_⟩
        split at h
        · next r' hr =>
          cases h
          have hle : p.base ≤ addr := by omega
          have hoff : addr - p.base = regOffset r := by
            unfold regAt at hr
            split at hr <;> cases hr <;> simpa [regOffset]
          simp only [regAddr]
          omega
        · cases h
  · rintro ⟨rfl, rfl⟩
    have h1 : ¬ (regAddr p r < p.base ∨ p.base + 0x20 ≤ regAddr p r) := by
      cases r <;> simp [regAddr, regOffset]
    have h2 : regAt (regAddr p r - p.base) = some r := by
      cases r <;> simp [regAddr, regOffset, regAt]
    simp [h1, h2]

/-- The register window answers exactly the well-formed accesses. -/
theorem busRegister_wf {p : Platform} {addr width : Nat} :
    (∃ r, busRegister p addr width = .ok r) ↔ AccessWf p.base addr width := by
  constructor
  · rintro ⟨r, hr⟩
    obtain ⟨rfl, rfl⟩ := busRegister_ok.1 hr
    refine ⟨rfl, ?_⟩
    cases r <;> simp [regAddr, regOffset]
  · rintro ⟨rfl, hle, hlt, hmod⟩
    obtain ⟨d, hd⟩ : ∃ d, addr = p.base + d := ⟨addr - p.base, by omega⟩
    have hd' : d = 0 ∨ d = 4 ∨ d = 8 ∨ d = 12 ∨ d = 16 ∨ d = 20 ∨ d = 24 ∨ d = 28 := by omega
    rcases hd' with h | h | h | h | h | h | h | h
    · exact ⟨.ctrl, busRegister_ok.2 ⟨rfl, by rw [hd, h]; rfl⟩⟩
    · exact ⟨.status, busRegister_ok.2 ⟨rfl, by rw [hd, h]; rfl⟩⟩
    · exact ⟨.src, busRegister_ok.2 ⟨rfl, by rw [hd, h]; rfl⟩⟩
    · exact ⟨.len, busRegister_ok.2 ⟨rfl, by rw [hd, h]; rfl⟩⟩
    · exact ⟨.result, busRegister_ok.2 ⟨rfl, by rw [hd, h]; rfl⟩⟩
    · exact ⟨.c0, busRegister_ok.2 ⟨rfl, by rw [hd, h]; rfl⟩⟩
    · exact ⟨.c1, busRegister_ok.2 ⟨rfl, by rw [hd, h]; rfl⟩⟩
    · exact ⟨.inten, busRegister_ok.2 ⟨rfl, by rw [hd, h]; rfl⟩⟩

/-- No two registers share an address. -/
theorem regAddr_inj {p : Platform} {r q : Reg} (h : regAddr p r = regAddr p q) : r = q := by
  have ho : regOffset r = regOffset q := by simpa [regAddr] using h
  cases r <;> cases q <;> first | rfl | simp [regOffset] at ho

/-! One lemma per field of a state with its first transition taken off the list. -/

section
variable (s : State)

@[simp] theorem popped_status : s.popped.status = s.status := rfl
@[simp] theorem popped_src : s.popped.src = s.src := rfl
@[simp] theorem popped_len : s.popped.len = s.len := rfl
@[simp] theorem popped_result : s.popped.result = s.result := rfl
@[simp] theorem popped_c0 : s.popped.c0 = s.c0 := rfl
@[simp] theorem popped_c1 : s.popped.c1 = s.c1 := rfl
@[simp] theorem popped_inten : s.popped.inten = s.inten := rfl
@[simp] theorem popped_ptr : s.popped.ptr = s.ptr := rfl
@[simp] theorem popped_rem : s.popped.rem = s.rem := rfl
@[simp] theorem popped_blk : s.popped.blk = s.blk := rfl
@[simp] theorem popped_pad : s.popped.pad = s.pad := rfl
@[simp] theorem popped_mem : s.popped.mem = s.mem := rfl
@[simp] theorem popped_platform : s.popped.platform = s.platform := rfl
@[simp] theorem popped_pending : s.popped.pending = s.pending.tail := rfl
@[simp] theorem popped_returned : s.popped.returned = s.returned := rfl

end

/-- The first transition taken off a list written out. -/
theorem popped_cons {s : State} {act : Action} {rest : List Action} (h : s.pending = act :: rest) :
    s.popped = { s with pending := rest } := by
  unfold State.popped
  rw [h]
  rfl

/-- Everything a step from `s` that answers the next state `t` can have done. -/
inductive StepCase (s t : State) : Prop
  /-- The engine's turn while idle (R172). -/
  | idleTurn (next : s.NextEngine) (idle : s.status.busy = false) (result : t = s.popped)
  /-- An element step (R104). -/
  | element (k : Kind) (next : s.NextEngine) (busy : s.status.busy = true) (mode : s.status.mode = some k)
      (result : t = elementStep k s.popped)
  /-- A legal word written to `CTRL` (R100). -/
  | command (i : Instr) (next : s.NextCommand (encode i)) (result : exec i s.popped = .next t)
  /-- An illegal word written to `CTRL` (R153). -/
  | illegalWord (v : Word) (next : s.NextCommand v) (illegal : 6 ≤ v.toNat)
      (result : t = acceptOrDrop (errorStop .illegal) s.popped)
  /-- `SRC` written (R42). -/
  | writeSrc (v : Word) (next : s.pending.head? = some (.write (regAddr s.platform .src) 32 v))
      (result : t = s.popped.withSrc v)
  /-- `LEN` written (R42). -/
  | writeLen (v : Word) (next : s.pending.head? = some (.write (regAddr s.platform .len) 32 v))
      (result : t = s.popped.withLen v)
  /-- `INTEN` written (R35, R42). -/
  | writeIntEn (v : Word) (next : s.pending.head? = some (.write (regAddr s.platform .inten) 32 v))
      (result : t = s.popped.withIntEn (intEnOf v))
  /-- A read-only register written: ignored (R42). -/
  | ignored (r : Reg) (v : Word) (readOnly : r = .status ∨ r = .result ∨ r = .c0 ∨ r = .c1)
      (next : s.pending.head? = some (.write (regAddr s.platform r) 32 v)) (result : t = s.popped)
  /-- A register read (R41). -/
  | read (r : Reg) (next : s.pending.head? = some (.read (regAddr s.platform r) 32))
      (result : t = s.popped.withReturned (.reg r (readReg r s)))
  /-- The host writes a byte of data memory (R62). -/
  | memWrite (a : Word) (b : Byte) (next : s.pending.head? = some (.memWrite a b))
      (result : t = s.popped.withMem (s.mem.write a.toNat b))
  /-- The host reads a byte of data memory (R62). -/
  | memRead (a : Word) (next : s.pending.head? = some (.memRead a))
      (result : t = s.popped.withReturned (.mem a (s.memByte a)))
  /-- A reset (R180). -/
  | reset (next : s.NextReset) (result : t = hardReset s.popped)

theorem step_nil {s : State} (h : s.pending = []) : step s = engineTurn s.popped := by
  have : s.popped = s := by cases s; cases h; rfl
  rw [this]
  simp [step, nextTransition, h]

theorem step_cons {s : State} {act : Action} {rest : List Action} (h : s.pending = act :: rest) :
    step s = transition act s.popped := by
  simp [step, nextTransition, h, State.popped]

/-- The inversion lemma of `step`. -/
theorem step_cases {s t : State} (h : step s = .next t) : StepCase s t := by
  have turn : ∀ (_ : s.NextEngine), engineTurn s.popped = .next t → StepCase s t := by
    intro hn ht
    rcases engineTurn_cases ht with ⟨hb, rfl⟩ | ⟨hb, k, hk, rfl⟩
    · exact .idleTurn hn hb rfl
    · exact .element k hn hb hk rfl
  cases hp : s.pending with
  | nil =>
    rw [step_nil hp] at h
    exact turn (.inl (by simp [hp])) h
  | cons act rest =>
    rw [step_cons hp] at h
    have hh : s.pending.head? = some act := by simp [hp]
    cases act with
    | write addr width v =>
      simp only [transition, hostWrite] at h
      split at h
      · next r hr =>
        obtain ⟨rfl, rfl⟩ := busRegister_ok.1 hr
        simp only [popped_platform] at hh
        cases r with
        | ctrl =>
          simp only [writeReg, writeCtrl] at h
          split at h
          · next i hi => exact .command i (by rw [← eq_encode_of_decode hi]; exact hh) h
          · next why hi => cases h; exact .illegalWord v hh (illegal_toNat hi) rfl
        | status => cases h; exact .ignored .status v (by simp) hh rfl
        | src => cases h; exact .writeSrc v hh rfl
        | len => cases h; exact .writeLen v hh rfl
        | result => cases h; exact .ignored .result v (by simp) hh rfl
        | c0 => cases h; exact .ignored .c0 v (by simp) hh rfl
        | c1 => cases h; exact .ignored .c1 v (by simp) hh rfl
        | inten => cases h; exact .writeIntEn v hh rfl
      · cases h
    | read addr width =>
      simp only [transition, hostRead] at h
      split at h
      · next r hr =>
        obtain ⟨rfl, rfl⟩ := busRegister_ok.1 hr
        cases h
        exact .read r hh rfl
      · cases h
    | memWrite a b => cases h; exact .memWrite a b hh rfl
    | memRead a => cases h; exact .memRead a hh rfl
    | engine => exact turn (.inr hh) h
    | reset => cases h; exact .reset hh rfl

/-- The next transition is a given one: what the step does then. -/
theorem step_head {s : State} {act : Action} (h : s.pending.head? = some act) :
    step s = transition act s.popped := by
  cases hp : s.pending with
  | nil => simp [hp] at h
  | cons a rest =>
    simp only [hp, List.head?_cons, Option.some.injEq] at h
    subst h
    exact step_cons hp

/-- The engine's turn comes next: what the step does then. -/
theorem step_engine {s : State} (h : s.NextEngine) : step s = engineTurn s.popped := by
  rcases h with h | h
  · exact step_nil (by simpa using h)
  · exact step_head h

/-- A register write comes next: what the step does then. -/
theorem step_write {s : State} {r : Reg} {v : Word}
    (h : s.pending.head? = some (.write (regAddr s.platform r) 32 v)) : step s = writeReg r v s.popped := by
  rw [step_head h]
  simp [transition, hostWrite, busRegister_ok.2 ⟨rfl, rfl⟩]

/-- A command comes next: what the step does then. -/
theorem step_command {s : State} {i : Instr} (h : s.NextCommand (encode i)) : step s = exec i s.popped := by
  rw [step_write h]
  simp [writeReg, writeCtrl, decode_encode]

/-- An induction for runs: what one step keeps, every run keeps. -/
theorem run_keeps {P : State → Prop} (hstep : ∀ s t, P s → step s = .next t → P t) :
    ∀ (n : Nat) {s t : State}, P s → Host.Core.run Sys2Proof.core n s = .next t → P t := by
  intro n
  induction n with
  | zero => intro s t hs h; cases h; exact hs
  | succ n ih =>
    intro s t hs h
    simp only [Host.Core.run] at h
    split at h
    · next s' hs' => exact ih (hstep s s' hs hs') h
    · cases h
    · cases h

end Sys2Proof.Machine
end

