-- ==== Sys2Proof/Tests/Slice0.lean ====
section
/-! SUPPORT. Tests and witnesses. The expected values come from the encodings of 30_encoding.md and the vectors of
95_test_vectors.md, whose names stand in the comments. A `witness_` theorem shows a concrete state and operands that meet
the hypotheses of the obligation it is named after, clause by clause. -/

namespace Sys2Proof.Tests
open Sys2Proof Sys2Proof.Machine

/-! ### Small states -/

/-- A platform with every address readable. -/
def openPlatform (o : WordOrder) : Platform := ⟨0x40000000, o, [⟨0, 0xFFFFFFFF⟩]⟩

/-- A platform that reads no address from `limit` on. -/
def lowPlatform (last : Word) : Platform := ⟨0x40000000, .le, [⟨0, last⟩]⟩

/-- The reset state on the open platform, with operands, memory and what is to come. -/
def idleState (src len : Word) (m : Memory) (acts : List Action) : State :=
  { State.reset with platform := openPlatform .le, src := src, len := len, mem := m, pending := acts }

/-- A running command's `STATUS`. -/
def busyStatus (k : Kind) : Status := ⟨true, false, false, false, .none, some k⟩

/-- A command of kind `k` between element steps. -/
def runState (p : Platform) (k : Kind) (ptr rem blk c0 c1 : Word) (pad : Bool) (m : Memory) (acts : List Action) :
    State :=
  { State.reset with
    platform := p, status := busyStatus k, ptr := ptr, rem := rem, blk := blk, c0 := c0, c1 := c1, pad := pad
    mem := m, pending := acts }

/-- The host's write of a word at an offset of the window. -/
def writeAt (off : Nat) (v : Word) : Action := .write (0x40000000 + off) 32 v

/-- One number read off the next state; `none` where the step does not answer. -/
def after (f : State → Word) (s : State) : Option Word :=
  match step s with
  | .next t => some (f t)
  | .fault _ => none
  | .refused _ => none

/-- `STATUS` after the step. -/
def statusAfter (s : State) : Option Word := after (readReg .status) s

/-- Why a step is refused. -/
def refusedAs (s : State) : Option Refusal :=
  match step s with
  | .next _ => none
  | .fault _ => none
  | .refused why => some why

/-- `STATUS` = 0x0000010A: an `F16` completed, with an overrun. -/
def doneOverrun : Status := ⟨false, true, false, true, .none, some .f16⟩

/-! ### What is ill-formed is refused -/

theorem test_wf_commands : ∀ i : Instr, i.wf = true := by intro i; cases i <;> rfl

theorem test_wf_width : ¬ AccessWf 0x40000000 0x40000004 8 ∧ ¬ AccessWf 0x40000000 0x40000004 16 := by decide

theorem test_wf_misaligned : ¬ AccessWf 0x40000000 0x40000005 32 ∧ ¬ AccessWf 0x40000000 0x40000006 32 := by decide

theorem test_wf_outside : ¬ AccessWf 0x40000000 0x40000020 32 ∧ ¬ AccessWf 0x40000000 0x3FFFFFFC 32 := by decide

theorem test_wf_ends : AccessWf 0x40000000 0x40000000 32 ∧ AccessWf 0x40000000 0x4000001C 32 := by decide

theorem test_wf_actions : ¬ Action.wf 0x40000000 (.read 0x40000021 32) ∧ ¬ Action.wf 0x40000000 (.write 0x40000000 64 0) ∧
    Action.wf 0x40000000 .engine := by decide

/-- R51, R52 (U7, U8): the machine refuses the same accesses, by name. -/
theorem test_refused_accesses :
    refusedAs (idleState 0 0 [] [.write 0x40000000 8 1]) = some .accessWidth ∧
    refusedAs (idleState 0 0 [] [.read 0x40000006 32]) = some .accessMisaligned ∧
    refusedAs (idleState 0 0 [] [.read 0x40000020 32]) = some .accessOutsideWindow ∧
    refusedAs (idleState 0 0 [] [.write 0x3FFFFFFC 32 1]) = some .accessOutsideWindow := by decide

/-! ### The words of the opcode table, bit by bit (R70, R71) -/

theorem test_decode_nop : decode 0b00000000000000000000000000000000#32 = .command .nop := by decide
theorem test_decode_f16 : decode 0b00000000000000000000000000000001#32 = .command .f16 := by decide
theorem test_decode_f32b : decode 0b00000000000000000000000000000010#32 = .command .f32b := by decide
theorem test_decode_f32w : decode 0b00000000000000000000000000000011#32 = .command .f32w := by decide
theorem test_decode_abort : decode 0b00000000000000000000000000000100#32 = .command .abort := by decide
theorem test_decode_clear : decode 0b00000000000000000000000000000101#32 = .command .clear := by decide

/-- R74: `OP` 6 and 15, and `RSV` with its lowest and its highest bit set. -/
theorem test_decode_illegal : decode 0x6 = .illegal .reservedOpcode ∧ decode 0xF = .illegal .reservedOpcode ∧
    decode 0x11 = .illegal .reservedBits ∧ decode 0x80000001 = .illegal .reservedBits := by decide

/-- The first step after reset runs the word placed where commands come from (P6: `STATUS` = 0x00000102). -/
theorem test_first_step : statusAfter (State.reset.withFetchWord 32 1) = some 0x102 := by decide

/-! ### The commands -/

/-- E14. -/
theorem test_nop_idle :
    statusAfter { idleState 0 0 [] [writeAt 0 0] with status := doneOverrun } = some 0x10A := by decide

/-- R150: while busy `NOP` does not set `OVR`. -/
theorem test_nop_busy :
    statusAfter (runState (openPlatform .le) .f16 0x1000 9 5002 0 0 false [] [writeAt 0 0]) = some 0x101 := by decide

/-- E5. -/
theorem test_f16_length : statusAfter (idleState 0xFFFFFFFF 2 [] [writeAt 0 1]) = some 0x134 := by decide

/-- V16-3, step 6: byte 0x66 completes "abcdef". -/
theorem test_f16_last : let s := runState (openPlatform .le) .f16 0x1005 1 4997 495 1475 false [(0x1005, 0x66)] []
    after State.result s = some 0x2057 ∧ after State.c0 s = some 87 ∧ after State.c1 s = some 32 ∧
    statusAfter s = some 0x102 := by decide

/-- E4: `ALIGN` comes before the zero-length completion. -/
theorem test_f32b_align : statusAfter (idleState 0x2001 0 [] [writeAt 0 2]) = some 0x224 := by decide

/-- V32-1, step 3 (padded), in both byte orders; 0x2005 holds a byte that must not be read. -/
theorem test_f32b_pad :
    after State.result (runState (openPlatform .le) .f32b 0x2004 1 358 50884 76069 true [(0x2004, 0x65), (0x2005, 9)] []) =
      some 0xF04FC729 ∧
    after State.result (runState (openPlatform .be) .f32b 0x2004 1 358 50374 75304 true [(0x2004, 0x65), (0x2005, 9)] []) =
      some 0x4FF029C7 := by decide

/-- E8: twice `LEN` is taken without wrap. -/
theorem test_f32w_length : statusAfter (idleState 0 0x80000001 [] [writeAt 0 3]) = some 0x334 := by decide

/-- V32-6, step 4, in both byte orders. -/
theorem test_f32w_last :
    after State.result (runState (openPlatform .le) .f32w 0x2006 1 357 77097 153166 false [(0x2006, 0x67), (0x2007, 0x68)] []) =
      some 0xEBE19591 ∧
    after State.result (runState (openPlatform .be) .f32w 0x2006 1 357 76332 151636 false [(0x2006, 0x67), (0x2007, 0x68)] []) =
      some 0xE1EB9195 := by decide

/-- E12. -/
theorem test_abort_busy : let s := runState (openPlatform .le) .f16 3 9997 4999 6 10 false [] [writeAt 0 4]
    statusAfter s = some 0x154 ∧ after State.c0 s = some 6 ∧ after State.c1 s = some 10 := by decide

/-- E13. -/
theorem test_abort_idle :
    statusAfter { idleState 0 0 [] [writeAt 0 4] with status := ⟨false, true, false, false, .none, some .f16⟩ } =
      some 0x102 := by decide

/-- E15. -/
theorem test_clear_idle :
    let s := { idleState 7 9 [] [writeAt 0 5] with status := doneOverrun, result := 0x429E, c0 := 158, c1 := 66 }
    statusAfter s = some 0 ∧ after State.result s = some 0 ∧ after State.c0 s = some 0 ∧ after State.c1 s = some 0 ∧
    after State.src s = some 7 := by decide

/-- R152: while busy `CLEAR` only sets `OVR`. -/
theorem test_clear_busy : let s := runState (openPlatform .le) .f32w 2 9 350 6 10 false [] [writeAt 0 5]
    statusAfter s = some 0x309 ∧ after State.c1 s = some 10 := by decide

/-! ### Illegal words, the element step, the bus, the interrupt line -/

/-- E1 and E2. -/
theorem test_illegal_idle : statusAfter (idleState 0 0 [] [writeAt 0 6]) = some 0x14 ∧
    statusAfter (idleState 0 0 [] [writeAt 0 0x11]) = some 0x14 := by decide

/-- E16. -/
theorem test_dropped : statusAfter (runState (openPlatform .le) .f16 0 9 5002 0 0 false [] [writeAt 0 3]) =
    some 0x109 := by decide

/-- E7: the last word of the address space is legal. -/
theorem test_top_of_memory : statusAfter (idleState 0xFFFFFFFE 2 [] [writeAt 0 2]) = some 0x201 ∧
    statusAfter (runState (openPlatform .le) .f32b 0xFFFFFFFE 1 360 0 0 false [] []) = some 0x202 := by decide

/-- V16-3, step 1: an element inside a block is not reduced. -/
theorem test_inner_element : let s := runState (openPlatform .le) .f16 0x1000 6 5002 0 0 false [(0x1000, 0x61)] []
    after State.c0 s = some 97 ∧ after State.c1 s = some 97 ∧ after State.blk s = some 5001 ∧
    after State.rem s = some 5 ∧ statusAfter s = some 0x101 := by decide

/-- V16-B3, step 5002: the reduction at the end of a block. -/
theorem test_block_end : let s := runState (openPlatform .le) .f16 5001 2 1 5001 12507501 false [(5001, 1)] []
    after State.c0 s = some 157 ∧ after State.c1 s = some 163 ∧ after State.blk s = some 5002 ∧
    statusAfter s = some 0x101 := by decide

/-- V32-B4, step 360: the largest sums, reduced to 0. -/
theorem test_largest_sums :
    let s := runState (openPlatform .le) .f32w 718 1 1 23527065 4234871700 false [(718, 0xFF), (719, 0xFF)] []
    after State.c0 s = some 0 ∧ after State.c1 s = some 0 ∧ after State.result s = some 0 := by decide

/-- E10: `BUS` at 0x3004, with the error interrupt enabled. -/
theorem test_bus_stop :
    let s := { runState (lowPlatform 0x3003) .f16 0x3004 4 4998 10 20 false [] [] with inten := ⟨false, true⟩ }
    statusAfter s = some 0x144 ∧ after State.c0 s = some 10 ∧ after State.c1 s = some 20 ∧
    after (fun t => if t.irq then 1 else 0) s = some 1 := by decide

/-- V32-10: the pad byte's address need not be readable; a full element's must. -/
theorem test_pad_not_read :
    after State.result (runState (lowPlatform 0x3000) .f32b 0x3000 1 360 0 0 true [(0x3000, 0x41)] []) = some 0x00410041 ∧
    statusAfter (runState (lowPlatform 0x3000) .f32w 0x3000 1 360 0 0 false [(0x3000, 0x41)] []) = some 0x344 := by decide

/-- I1 to I5. -/
theorem test_irq :
    { State.reset with status := ⟨false, true, false, false, .none, some .f16⟩, inten := ⟨true, false⟩ }.irq = true ∧
    { State.reset with status := ⟨false, true, false, false, .none, some .f16⟩, inten := ⟨false, true⟩ }.irq = false ∧
    { State.reset with status := ⟨false, false, true, false, .bus, some .f16⟩, inten := ⟨false, true⟩ }.irq = true ∧
    { State.reset with status := busyStatus .f16, inten := ⟨true, true⟩ }.irq = false ∧
    { State.reset with status := ⟨true, false, false, true, .none, some .f16⟩, inten := ⟨true, false⟩ }.irq = false := by
  decide

/-- I6 and R35: the write raises the line at once and keeps bits 1:0 only. -/
theorem test_inten_write :
    let s := { idleState 0 0 [] [writeAt 0x1C 0xFFFFFFFD] with status := ⟨false, true, false, false, .none, some .f16⟩ }
    after (readReg .inten) s = some 1 ∧ after (fun t => if t.irq then 1 else 0) s = some 1 := by decide

/-- R42: `STATUS` and `RESULT` ignore writes; `LEN` takes all 32 bits. -/
theorem test_register_writes :
    statusAfter (idleState 0 0 [] [writeAt 0x04 0xFFFFFFFF]) = some 0 ∧
    after State.result (idleState 0 0 [] [writeAt 0x10 7]) = some 0 ∧
    after State.len (idleState 0 0 [] [writeAt 0x0C 0xFFFFFFFF]) = some 0xFFFFFFFF := by decide

/-- R41: the value read, newest first. -/
theorem test_register_read :
    (match step (idleState 0x1234 0 [] [.read 0x40000008 32]) with
      | .next t => t.returned
      | .fault _ => []
      | .refused _ => []) = [.reg .src 0x1234] := by decide

/-- R180: a reset abandons the running command and keeps memory. -/
theorem test_reset :
    let s := runState (openPlatform .le) .f16 3 9 4999 6 10 false [(3, 1)] [.reset]
    statusAfter s = some 0 ∧ after State.c0 s = some 0 ∧ after State.ptr s = some 0 ∧
    after (fun t => (t.memByte 3).setWidth 32) s = some 1 := by decide

/-- The canonical form: a byte written is listed in its place, and writing what an unlisted byte reads as removes it. -/
theorem test_memory_canonical :
    Memory.write (Memory.write (Memory.write [] 5 1) 0xFFFFFFFF 2) 3 3 = [(3, 3), (5, 1), (0xFFFFFFFF, 2)] ∧
    Memory.write [(3, 3), (5, 1)] 3 0 = [(5, 1)] ∧ Memory.read [(3, 3), (5, 1)] 4 = 0 := by decide

/-! ### Witnesses: encoding and step -/

theorem witness_StepRunsTheDecodedCommand :
    let s := idleState 0 6 [] [writeAt 0 1, .engine]
    s.pending = .write (s.platform.base + 0x00) 32 1 :: [.engine] ∧ decode 1 = .command .f16 := by decide

/-- Idle and busy, at the least and at the greatest illegal word. -/
theorem witness_IllegalWordsStopOrAreDropped :
    (let s := idleState 0 0 [] [writeAt 0 6]
     s.pending = .write (s.platform.base + 0x00) 32 6 :: [] ∧ 6 ≤ (6 : Word).toNat ∧ s.status.busy = false) ∧
    (let s := runState (openPlatform .le) .f16 0 9 5002 0 0 false [] [writeAt 0 0xFFFFFFFF]
     s.pending = .write (s.platform.base + 0x00) 32 0xFFFFFFFF :: [] ∧ 6 ≤ (0xFFFFFFFF : Word).toNat ∧
      s.status.busy = true) := by decide

theorem witness_AbortStopsOnlyARunningCommand :
    (runState (openPlatform .le) .f16 0 9 5002 0 0 false [] []).status.busy = true ∧
    (idleState 0 0 [] []).status.busy = false := by decide

theorem witness_ClearReturnsTheRecordToReset :
    { idleState 0 0 [] [] with status := doneOverrun }.status.busy = false ∧
    (runState (openPlatform .le) .f32w 0 9 360 0 0 false [] []).status.busy = true := by decide

/-- The buffer ends at the top of the address space, and one byte past it. -/
theorem witness_F16StartsOverLenBytes :
    (let s := idleState 0xFFFFFFFF 1 [] []
     s.status.busy = false ∧ s.len ≠ 0 ∧ s.src.toNat + s.len.toNat ≤ 2 ^ 32) ∧
    (let s := idleState 0xFFFFFFFF 2 [] []
     s.status.busy = false ∧ 2 ^ 32 < s.src.toNat + s.len.toNat) := by decide

/-- `LEN` = 0xFFFFFFFF at 0 (the sum is legal, and LEN + 1 would wrap), and at 2. -/
theorem witness_F32BStartsOverRoundedUpBytes :
    (let s := idleState 0 0xFFFFFFFF [] []
     s.status.busy = false ∧ s.src.toNat % 2 = 0 ∧ s.len ≠ 0 ∧ s.src.toNat + s.len.toNat ≤ 2 ^ 32) ∧
    (let s := idleState 2 0xFFFFFFFF [] []
     s.status.busy = false ∧ s.src.toNat % 2 = 0 ∧ 2 ^ 32 < s.src.toNat + s.len.toNat) := by decide

/-- All of data memory, and one word more. -/
theorem witness_F32WStartsOverLenWords :
    (let s := idleState 0 0x80000000 [] []
     s.status.busy = false ∧ s.src.toNat % 2 = 0 ∧ s.len ≠ 0 ∧ s.src.toNat + 2 * s.len.toNat ≤ 2 ^ 32) ∧
    (let s := idleState 0 0x80000001 [] []
     s.status.busy = false ∧ s.src.toNat % 2 = 0 ∧ 2 ^ 32 < s.src.toNat + 2 * s.len.toNat) := by decide

theorem witness_ZeroLengthCommandCompletesAtOnce :
    (let s := idleState 0xFFFFFFFF 0 [] []
     s.status.busy = false ∧ s.len = 0 ∧ (Kind.f16 ≠ .f16 → s.src.toNat % 2 = 0)) ∧
    (let s := idleState 0xFFFFFFFE 0 [] []
     s.status.busy = false ∧ s.len = 0 ∧ (Kind.f32b ≠ .f16 → s.src.toNat % 2 = 0)) := by decide

theorem witness_OddSourceStopsWithAlign :
    let s := idleState 0xFFFFFFFF 0xFFFFFFFF [] []
    Kind.f32w ≠ .f16 ∧ s.status.busy = false ∧ s.src.toNat % 2 = 1 := by decide

/-- A word of each kind: dropped, `NOP`, `ABORT`. -/
theorem witness_CommandWrittenWhileBusyIsDropped :
    (let s := runState (openPlatform .le) .f16 0 9 5002 0 0 false [] [writeAt 0 5]
     s.status.busy = true ∧ s.pending = .write (s.platform.base + 0x00) 32 5 :: [] ∧ (5 : Word) ≠ 0 ∧ (5 : Word) ≠ 4) ∧
    (let s := runState (openPlatform .le) .f16 0 9 5002 0 0 false [] [writeAt 0 0]
     s.status.busy = true ∧ s.pending = .write (s.platform.base + 0x00) 32 0 :: []) ∧
    (let s := runState (openPlatform .le) .f16 0 9 5002 0 0 false [] [writeAt 0 4]
     s.status.busy = true ∧ s.pending = .write (s.platform.base + 0x00) 32 4 :: []) := by decide

/-! ### Witnesses: frames -/

theorem witness_ControlCommandFrame :
    let s := runState (openPlatform .le) .f16 0 9 5002 0 0 false [] []
    (∃ t, exec .nop s = .next t) ∧ (∃ t, exec .abort s = .next t) ∧ (∃ t, exec .clear s = .next t) ∧
    s.status.busy = true ∧ (∃ t, exec .abort (idleState 0 0 [] []) = .next t) ∧
    (idleState 0 0 [] []).status.busy = false := ⟨⟨_, rfl⟩, ⟨_, rfl⟩, ⟨_, rfl⟩, rfl, ⟨_, rfl⟩, rfl⟩

theorem witness_ComputeCommandFrame :
    (∃ t, exec Kind.f16.instr (runState (openPlatform .le) .f16 0 9 5002 0 0 false [] []) = .next t) ∧
    (∃ t, exec Kind.f32b.instr (idleState 1 0 [] []) = .next t ∧ t.status.err = true) ∧
    (∃ t, exec Kind.f32w.instr (idleState 0 0 [] []) = .next t ∧ t.status.done = true) :=
  ⟨⟨_, rfl⟩, ⟨_, rfl, rfl⟩, ⟨_, rfl, rfl⟩⟩

theorem witness_ElementStepFrame :
    (∃ t, (runState (openPlatform .le) .f16 0 9 5002 0 0 false [] []).NextEngine ∧
      step (runState (openPlatform .le) .f16 0 9 5002 0 0 false [] []) = .next t ∧ t.status.busy = true) ∧
    (∃ t, (idleState 0 0 [] [.engine]).NextEngine ∧ step (idleState 0 0 [] [.engine]) = .next t ∧
      (idleState 0 0 [] [.engine]).status.busy = false) :=
  ⟨⟨_, .inl rfl, rfl, rfl⟩, ⟨_, .inr rfl, rfl, rfl⟩⟩

/-! ### Witnesses: the element step -/

/-- The end of a block and of the input together, an unreadable element, and the idle engine. -/
theorem witness_ElementStepAccumulatesReducesCompletes :
    (let s := runState (openPlatform .le) .f16 7 1 1 3 4 false [(7, 5)] []
     s.NextEngine ∧ s.status.busy = true ∧ s.status.mode = some .f16 ∧ readElement .f16 s = some ⟨5, 1⟩) ∧
    (let s := runState (lowPlatform 6) .f16 7 1 1 3 4 false [] []
     s.NextEngine ∧ s.status.busy = true ∧ s.status.mode = some .f16 ∧ readElement .f16 s = none) ∧
    (let s := idleState 0 0 [] []
     s.NextEngine ∧ s.status.busy = false) := by
  refine ⟨⟨.inl rfl, by decide⟩, ⟨.inl rfl, by decide⟩, ⟨.inl rfl, rfl⟩⟩

/-- Each clause, the addresses at the edge of what is readable. -/
theorem witness_ElementReadByModeOrBusStop :
    (runState (lowPlatform 7) .f16 7 1 1 0 0 false [] []).memReadable 7 = true ∧
    (let s := runState (lowPlatform 6) .f32b 6 1 1 0 0 true [] []
     Kind.f32b ≠ .f16 ∧ s.rem = 1 ∧ s.pad = true ∧ s.memReadable s.ptr = true) ∧
    (let s := runState (lowPlatform 7) .f32b 6 2 1 0 0 true [] []
     Kind.f32b ≠ .f16 ∧ ¬ (s.rem = 1 ∧ s.pad = true) ∧ s.memReadable s.ptr = true ∧
      s.memReadable (s.ptr + 1) = true) ∧
    (let s := runState (lowPlatform 6) .f32w 6 1 1 0 0 false [] []
     s.pending.head? = none ∧ s.status.busy = true ∧ s.status.mode = some .f32w ∧
      (s.memReadable s.ptr = false ∨
        (Kind.f32w ≠ .f16 ∧ ¬ (s.rem = 1 ∧ s.pad = true) ∧ s.memReadable (s.ptr + 1) = false))) := by decide

theorem witness_CompletionPacksTheReducedSums :
    let s := runState (openPlatform .le) .f32b 0xFFFFFFFE 1 1 3 4 false [] []
    s.pending.head? = none ∧ s.status.busy = true ∧ s.status.mode = some .f32b ∧ readElement .f32b s ≠ none ∧
    s.rem = 1 := by decide

/-- A running command stopped by `BUS`, and an error recorded while idle with `OVR` set before. -/
theorem witness_ErrorStopChangesOnlyTheRecord :
    (let s := runState (lowPlatform 6) .f16 7 1 1 3 4 false [] []
     (s.status.busy = true → s.status.err = false) ∧
      ∃ t, step s = .next t ∧ t.status.err = true ∧ t.status ≠ s.status) ∧
    (let s := { idleState 1 0 [] [writeAt 0 2] with status := doneOverrun }
     (s.status.busy = true → s.status.err = false) ∧
      ∃ t, step s = .next t ∧ t.status.err = true ∧ t.status ≠ s.status) :=
  ⟨⟨by decide, _, rfl, by decide⟩, ⟨by decide, _, rfl, by decide⟩⟩

/-! ### Witnesses: registers, reset, memory -/

theorem witness_HostReadReturnsTheRegister :
    let s := idleState 0 0 [] [.read 0x40000000 32]
    let u := idleState 0 0 [] [.read 0x4000001C 32]
    s.pending = .read (s.platform.base + 0x00) 32 :: [] ∧ u.pending = .read (u.platform.base + 0x1C) 32 :: [] := by decide

/-- One write for each clause. -/
theorem witness_HostWriteActsByRegister :
    (idleState 0 0 [] [writeAt 0x08 7]).pending = .write ((idleState 0 0 [] []).platform.base + 0x08) 32 7 :: [] ∧
    (idleState 0 0 [] [writeAt 0x0C 7]).pending = .write ((idleState 0 0 [] []).platform.base + 0x0C) 32 7 :: [] ∧
    (idleState 0 0 [] [writeAt 0x1C 7]).pending = .write ((idleState 0 0 [] []).platform.base + 0x1C) 32 7 :: [] ∧
    (idleState 0 0 [] [writeAt 0x00 7]).pending = .write ((idleState 0 0 [] []).platform.base + 0x00) 32 7 :: [] ∧
    (idleState 0 0 [] [writeAt 0x04 7]).pending = .write ((idleState 0 0 [] []).platform.base + 0x04) 32 7 :: [] ∧
    (idleState 0 0 [] [writeAt 0x18 7]).pending = .write ((idleState 0 0 [] []).platform.base + 0x18) 32 7 :: [] ∧
    ∃ t, step (idleState 0 0 [] [writeAt 0x18 7]) = .next t := ⟨rfl, rfl, rfl, rfl, rfl, rfl, _, rfl⟩

theorem witness_IntEnWriteGatesTheLineAtOnce :
    let s := idleState 0 0 [] [writeAt 0x1C 0xFFFFFFFF]
    s.pending = .write (s.platform.base + 0x1C) 32 0xFFFFFFFF :: [] := by decide

/-- The last register's address, answered; one byte past the window, refused. -/
theorem witness_OnlyAlignedWindowAccessesAreAnswered :
    (idleState 0 0 [] [.read 0x4000001C 32]).pending = .read 0x4000001C 32 :: [] ∧
    (idleState 0 0 [] [.write 0x40000020 32 1]).pending = .write 0x40000020 32 1 :: [] := by decide

theorem witness_ResetZeroesTheEngineAndKeepsMemory :
    (runState (openPlatform .le) .f16 3 9 4999 6 10 false [(3, 1)] [.reset]).pending = .reset :: [] := by decide

/-- At both ends of data memory. -/
theorem witness_HostMemoryAccessesAreBytewise :
    (let s := idleState 0 0 [(0, 1)] [.memWrite 0xFFFFFFFF 2]
     s.mem.wf ∧ s.pending = .memWrite 0xFFFFFFFF 2 :: []) ∧
    (let s := idleState 0 0 [(0, 1)] [.memRead 0]
     s.mem.wf ∧ s.pending = .memRead 0 :: []) := by decide

/-- A write of `SRC`, of `LEN`, of `INTEN` and of memory, each changing what it writes. -/
theorem witness_OnlyTheHostWritesHostState :
    (∃ t, step (idleState 0 0 [] [writeAt 0x08 7]) = .next t ∧ t.src ≠ (idleState 0 0 [] []).src) ∧
    (∃ t, step (idleState 0 0 [] [writeAt 0x0C 7]) = .next t ∧ t.len ≠ (idleState 0 0 [] []).len) ∧
    (∃ t, step (idleState 0 0 [] [writeAt 0x1C 7]) = .next t ∧ t.inten ≠ (idleState 0 0 [] []).inten) ∧
    (∃ t, step (idleState 0 0 [] [.memWrite 3 7]) = .next t ∧ t.mem ≠ (idleState 0 0 [] []).mem) ∧
    (∃ t, step (idleState 5 0 [] [.reset]) = .next t ∧ t.src ≠ 5) :=
  ⟨⟨_, rfl, by decide⟩, ⟨_, rfl, by decide⟩, ⟨_, rfl, by decide⟩, ⟨_, rfl, by decide⟩, ⟨_, rfl, by decide⟩⟩

/-! ### Witnesses: whole-machine rules -/

/-- `BUSY` rises at a start; falls by each of its causes; an idle engine's turn. -/
theorem witness_BusyChangesOnlyByStartStopReset :
    (∃ t, step (idleState 0 1 [] [writeAt 0 1]) = .next t ∧ t.status.busy = true) ∧
    (∃ t, step (runState (openPlatform .le) .f16 0 1 1 0 0 false [] []) = .next t ∧ t.status.busy = false) ∧
    (∃ t, step (runState (lowPlatform 6) .f16 7 1 1 0 0 false [] []) = .next t ∧ t.status.busy = false) ∧
    (∃ t, step (runState (openPlatform .le) .f16 0 1 1 0 0 false [] [writeAt 0 4]) = .next t ∧ t.status.busy = false) ∧
    (∃ t, step (runState (openPlatform .le) .f16 0 1 1 0 0 false [] [.reset]) = .next t ∧ t.status.busy = false) ∧
    (∃ t, step (idleState 0 1 [] []) = .next t ∧ (idleState 0 1 [] []).NextEngine) :=
  ⟨⟨_, rfl, rfl⟩, ⟨_, rfl, rfl⟩, ⟨_, rfl, rfl⟩, ⟨_, rfl, rfl⟩, ⟨_, rfl, rfl⟩, ⟨_, rfl, .inl rfl⟩⟩

/-- `DONE` rises at completion and at a zero-length start; falls by the status clear and by reset. -/
theorem witness_DoneChangesOnlyByCompletionAndClear :
    (∃ t, step (runState (openPlatform .le) .f16 0 1 1 0 0 false [] []) = .next t ∧ t.status.done = true) ∧
    (∃ t, step (idleState 0 0 [] [writeAt 0 3]) = .next t ∧ t.status.done = true) ∧
    (∃ t, step { idleState 0 0 [] [writeAt 0 6] with status := doneOverrun } = .next t ∧ t.status.done = false) ∧
    (∃ t, step { idleState 0 0 [] [.reset] with status := doneOverrun } = .next t ∧ t.status.done = false) :=
  ⟨⟨_, rfl, rfl⟩, ⟨_, rfl, rfl⟩, ⟨_, rfl, rfl⟩, ⟨_, rfl, rfl⟩⟩

theorem witness_OvrIsStickyAndHarmless :
    (let s := runState (openPlatform .le) .f16 0 9 5002 0 0 false [] [writeAt 0 5]
     (∃ t, step s = .next t ∧ s.status.ovr = false ∧ t.status.ovr = true) ∧ s.status.busy = true ∧
      ∃ v, s.NextCommand v ∧ v ≠ 0 ∧ v ≠ 4) ∧
    (∃ t, step { idleState 0 0 [] [writeAt 0 5] with status := doneOverrun } = .next t ∧ t.status.ovr = false) ∧
    (∃ t, step { idleState 0 0 [] [.reset] with status := doneOverrun } = .next t ∧ t.status.ovr = false) :=
  ⟨⟨⟨_, rfl, rfl, rfl⟩, rfl, 5, rfl, by decide⟩, ⟨_, rfl, rfl⟩, ⟨_, rfl, rfl⟩⟩

/-- One step for each of the five codes, and one that clears the record. -/
theorem witness_ErrorsHaveTheirCauses :
    (∃ t, step (idleState 0 0 [] [writeAt 0 6]) = .next t ∧ t.status.ecode = .illegal) ∧
    (∃ t, step (idleState 1 0 [] [writeAt 0 2]) = .next t ∧ t.status.ecode = .align) ∧
    (∃ t, step (idleState 0xFFFFFFFF 2 [] [writeAt 0 1]) = .next t ∧ t.status.ecode = .length) ∧
    (∃ t, step (runState (lowPlatform 6) .f16 7 1 1 0 0 false [] []) = .next t ∧ t.status.ecode = .bus) ∧
    (∃ t, step (runState (openPlatform .le) .f16 0 1 1 0 0 false [] [writeAt 0 4]) = .next t ∧
      t.status.ecode = .aborted) ∧
    (∃ t, step { idleState 0 0 [] [writeAt 0 5] with status := ⟨false, false, true, false, .bus, some .f16⟩ } = .next t ∧
      t.status.err = false) :=
  ⟨⟨_, rfl, rfl⟩, ⟨_, rfl, rfl⟩, ⟨_, rfl, rfl⟩, ⟨_, rfl, rfl⟩, ⟨_, rfl, rfl⟩, ⟨_, rfl, rfl⟩⟩

/-- `MODE` written by a start that its checks stop, by `CLEAR`, and by reset. -/
theorem witness_ModeNamesTheLastCommandStarted :
    (∃ t, step (idleState 1 0 [] [writeAt 0 2]) = .next t ∧ t.status.mode ≠ (idleState 1 0 [] []).status.mode) ∧
    (∃ t, step { idleState 0 0 [] [writeAt 0 5] with status := doneOverrun } = .next t ∧
      t.status.mode ≠ doneOverrun.mode) ∧
    (∃ t, step { idleState 0 0 [] [.reset] with status := doneOverrun } = .next t ∧ t.status.mode ≠ doneOverrun.mode) ∧
    (idleState 1 0 [] [writeAt 0 2]).status.busy = false ∧
    (idleState 1 0 [] [writeAt 0 2]).NextCommand (encode Kind.f32b.instr) :=
  ⟨⟨_, rfl, by decide⟩, ⟨_, rfl, by decide⟩, ⟨_, rfl, by decide⟩, rfl, rfl⟩

/-- `ABORT` while idle, and a write of `LEN`. -/
theorem witness_ResultsStayUntilTheNextCommand :
    (let s := { idleState 0 0 [] [writeAt 0 4] with status := doneOverrun }
     s.status.busy = false ∧ (∃ t, step s = .next t) ∧ ¬ s.NextReset ∧ ∀ v, s.NextCommand v → v = 0 ∨ v = 4) ∧
    (let s := idleState 0 0 [] [writeAt 0x0C 9]
     s.status.busy = false ∧ (∃ t, step s = .next t) ∧ ¬ s.NextReset ∧ ∀ v, s.NextCommand v → v = 0 ∨ v = 4) := by
  refine ⟨⟨rfl, ⟨_, rfl⟩, by decide, ?_⟩, ⟨rfl, ⟨_, rfl⟩, by decide, ?_⟩⟩
  · intro v h
    simp only [State.NextCommand, idleState, List.head?_cons, writeAt, Option.some.injEq, Action.write.injEq] at h
    exact .inr h.2.2.symm
  · intro v h
    simp [State.NextCommand, idleState, writeAt, regAddr, regOffset, openPlatform] at h

/-- By a completion, `CLEAR`, a zero-length start and reset. -/
theorem witness_ResultWrittenOnlyByCompletionClearReset :
    (∃ t, step (runState (openPlatform .le) .f16 0 1 1 0 0 false [(0, 1)] []) = .next t ∧ t.result ≠ 0) ∧
    (∃ t, step { idleState 0 0 [] [writeAt 0 5] with result := 9 } = .next t ∧ t.result ≠ 9) ∧
    (∃ t, step { idleState 0 0 [] [writeAt 0 1] with result := 9 } = .next t ∧ t.result ≠ 9) ∧
    (∃ t, step { idleState 0 0 [] [.reset] with result := 9 } = .next t ∧ t.result ≠ 9) :=
  ⟨⟨_, rfl, by decide⟩, ⟨_, rfl, by decide⟩, ⟨_, rfl, by decide⟩, ⟨_, rfl, by decide⟩⟩

/-- The line rises at completion and at an `INTEN` write, and falls at `CLEAR`. -/
theorem witness_IrqChangesOnlyByRecordEnableOrReset :
    (let s := { runState (openPlatform .le) .f16 0 1 1 0 0 false [] [] with inten := ⟨true, false⟩ }
     s.irq = false ∧ ∃ t, step s = .next t ∧ t.irq = true) ∧
    (let s := { idleState 0 0 [] [writeAt 0x1C 1] with status := doneOverrun }
     s.irq = false ∧ ∃ t, step s = .next t ∧ t.irq = true) ∧
    (let s := { idleState 0 0 [] [writeAt 0 5] with status := doneOverrun, inten := ⟨true, false⟩ }
     (s.status.busy = true → s.status.done = false ∧ s.status.err = false) ∧ s.irq = true ∧
      ∃ t, step s = .next t ∧ t.irq = false) :=
  ⟨⟨rfl, _, rfl, rfl⟩, ⟨rfl, _, rfl, rfl⟩, ⟨by decide, rfl, _, rfl, rfl⟩⟩

/-! ### Witnesses: invariants -/

/-- The last element of a block and of an odd-length `F32B` at the top of data memory, with the sums at their bounds. -/
def edgeState : State :=
  runState (openPlatform .le) .f32b 0xFFFFFFFE 1 1 (65534 + 359 * 65535) (65534 + 359 * 65534 + 65535 * (359 * 360 / 2))
    true [(0xFFFFFFFE, 0xFF)] []

theorem edgeState_inv : edgeState.Inv where
  err_iff_ecode := by decide
  not_done_and_err := by decide
  running := fun _ => ⟨.f32b, {
    mode := rfl
    record := by decide
    rem_pos := by decide
    blk_range := by decide
    pad_kind := fun _ => rfl
    c0_bound := by decide
    c1_bound := by decide
    aligned := by decide
    in_space := by decide }⟩
  memory := by decide

theorem witness_EveryStepKeepsTheInvariants : edgeState.Inv ∧ ∃ t, step edgeState = .next t :=
  ⟨edgeState_inv, _, rfl⟩

theorem witness_ResetMeetsTheInvariants : Memory.wf [(0, 1), (0xFFFFFFFF, 2)] := by decide

/-- A command is running after two steps from reset. -/
theorem witness_EveryReachableStateMeetsR44 :
    Memory.wf [(0, 1)] ∧ ∃ t, Host.Core.run Sys2Proof.core 2
      { State.reset with platform := openPlatform .le, mem := [(0, 1)], pending := [writeAt 0x0C 1, writeAt 0 1] } =
        .next t ∧ t.status.busy = true := ⟨by decide, _, rfl, rfl⟩

theorem witness_NoAccumulatorAddEverWraps :
    edgeState.Inv ∧ edgeState.status.busy = true ∧ edgeState.status.mode = some .f32b ∧
    readElement .f32b edgeState = some ⟨0xFF, 1⟩ := ⟨edgeState_inv, rfl, rfl, by decide⟩

theorem witness_InvariantStatesStopOnlyOnRefusedAccesses :
    edgeState.Inv ∧ ∃ t, step edgeState = .next t := ⟨edgeState_inv, _, rfl⟩

/-! ### Witnesses: the checksum -/

/-- On the open platform every address is readable. -/
theorem openPlatform_readable (o : WordOrder) (a : Word) : platformReadable (openPlatform o) a = true := by
  simp only [platformReadable, openPlatform, regionCovers, List.any_cons, List.any_nil, Bool.or_false, Bool.and_eq_true,
    decide_eq_true_eq, BitVec.le_def]
  have := a.isLt
  exact ⟨Nat.zero_le _, by show a.toNat ≤ 4294967295; omega⟩

/-- "abc" at the top of data memory, and `F32B` over its three bytes: two elements, the last one padded. -/
def oddBuffer : State :=
  idleState 0xFFFFFFFC 3 [(0xFFFFFFFC, 0x61), (0xFFFFFFFD, 0x62), (0xFFFFFFFE, 0x63)] [writeAt 0 2]

theorem oddBuffer_readable (n : Nat) : ReadableBytes oddBuffer n := fun a _ _ => openPlatform_readable .le a

theorem witness_IntermediateSumsAreReducedOnlyAtBlocks :
    Commanded .f32b oddBuffer ∧ StartPasses .f32b oddBuffer ∧ ReadableBytes oddBuffer (byteCount .f32b oddBuffer) ∧
    1 < elementCount .f32b oddBuffer := ⟨⟨rfl, rfl⟩, by decide, oddBuffer_readable _, by decide⟩

theorem witness_CompletedCommandGivesTheFletcherSums :
    Commanded .f32b oddBuffer ∧ StartPasses .f32b oddBuffer ∧ ReadableBytes oddBuffer (byteCount .f32b oddBuffer) :=
  ⟨⟨rfl, rfl⟩, by decide, oddBuffer_readable _⟩

/-- Two words, the second unreadable in its second byte. -/
def cutBuffer : State :=
  { idleState 0 2 [] [writeAt 0 3] with platform := lowPlatform 2 }

theorem witness_BusErrorStopsAfterTheReadableElements :
    Commanded .f32w cutBuffer ∧ StartPasses .f32w cutBuffer ∧ 1 < elementCount .f32w cutBuffer ∧
    ReadableBytes cutBuffer (2 * 1) ∧
    ∃ a : Word, cutBuffer.src.toNat + 2 * 1 ≤ a.toNat ∧ a.toNat < cutBuffer.src.toNat + 2 * (1 + 1) ∧
      a.toNat < cutBuffer.src.toNat + byteCount .f32w cutBuffer ∧ cutBuffer.memReadable a = false := by
  refine ⟨⟨rfl, rfl⟩, by decide, by decide, fun a _ h => ?_, 3, by decide⟩
  have h2 : a.toNat < 2 := h
  simp only [State.memReadable, platformReadable, cutBuffer, lowPlatform, regionCovers, List.any_cons, List.any_nil,
    Bool.or_false, Bool.and_eq_true, decide_eq_true_eq, BitVec.le_def]
  exact ⟨Nat.zero_le _, by show a.toNat ≤ 2; omega⟩

/-- The greatest even length. -/
theorem witness_ByteAndWordFormsAgreeOnEvenLengths :
    (idleState 0 0 [] []).status.busy = false ∧ 2 * 0x7FFFFFFF < 2 ^ 32 := by decide

theorem witness_OddLengthEqualsZeroPaddedLength :
    oddBuffer.status.busy = false ∧ oddBuffer.len.toNat % 2 = 1 ∧ oddBuffer.len.toNat + 1 < 2 ^ 32 ∧
    oddBuffer.memReadable (oddBuffer.src + oddBuffer.len) = true ∧
    oddBuffer.memByte (oddBuffer.src + oddBuffer.len) = 0 := by decide

/-- Two machines that differ in the record, in memory outside the buffer and in the platform's map. -/
theorem witness_InputBytesDetermineTheChecksum :
    let s := idleState 0 1 [(0, 7)] [writeAt 0 1]
    let u := { idleState 0 1 [(0, 7), (1, 9)] [.write 0x40000000 32 1] with
      status := doneOverrun, platform := ⟨0x40000000, .le, [⟨0, 0⟩]⟩ }
    Commanded .f16 s ∧ Commanded .f16 u ∧ StartPasses .f16 s ∧ s.src = u.src ∧ s.len = u.len ∧
    s.platform.wordOrder = u.platform.wordOrder ∧ ReadableBytes s (byteCount .f16 s) ∧
    ReadableBytes u (byteCount .f16 u) ∧
    (∀ a : Word, s.src.toNat ≤ a.toNat → a.toNat < s.src.toNat + byteCount .f16 s → s.memByte a = u.memByte a) ∧
    1 ≤ elementCount .f16 s := by
  have zero : ∀ a : Word, a.toNat < 0 + 1 → a = 0 := fun a h => BitVec.eq_of_toNat_eq (by show a.toNat = 0; omega)
  refine ⟨⟨rfl, rfl⟩, ⟨rfl, rfl⟩, by decide, rfl, rfl, rfl, fun a _ h => ?_, fun a _ h => ?_, fun a _ h => ?_, by decide⟩
  · rw [zero a h]; decide
  · rw [zero a h]; decide
  · rw [zero a h]; decide

/-- A running command with a register write, a read and engine turns between. -/
theorem witness_HostRegisterTrafficNeverDisturbsTheEngine :
    let s := runState (openPlatform .le) .f16 0 3 5002 0 0 false [(0, 1), (1, 2)]
      [.engine, writeAt 0x0C 9, .read 0x40000014 32, .memRead 1, .engine]
    (∀ act ∈ s.pending, Bystander s.platform act) ∧ ∃ t, Host.Core.run Sys2Proof.core s.pending.length s = .next t := by
  refine ⟨?_, _, rfl⟩
  intro act h
  simp only [runState, List.mem_cons, List.not_mem_nil, or_false] at h
  rcases h with rfl | rfl | rfl | rfl | rfl
  · trivial
  · exact ⟨by decide, by decide⟩
  · exact (by decide : AccessWf 0x40000000 0x40000014 32)
  · trivial
  · trivial

end Sys2Proof.Tests
end

/-! SUPPORT. What one step does to the engine, said once (40_engine_common.md R100, R104): every whole-machine rule about
`STATUS`, `RESULT` and the invariants is a case analysis on `engine_cases`. -/

namespace Sys2Proof.Machine

/-! ### The words of the commands R100 accepts or drops -/

theorem kind_word_accepted (k : Kind) : encode k.instr ≠ 0 ∧ encode k.instr ≠ 4 := by cases k <;> decide

theorem illegal_word_accepted {v : Word} (h : 6 ≤ v.toNat) : v ≠ 0 ∧ v ≠ 4 := by
  constructor <;> rintro rfl <;> simp at h

/-- Only `NOP` and `ABORT` are taken out of R100's frame. -/
theorem word_accepted {i : Instr} (hn : i ≠ .nop) (ha : i ≠ .abort) : encode i ≠ 0 ∧ encode i ≠ 4 := by
  rcases instr_cases i with rfl | rfl | rfl | ⟨k, rfl⟩
  · exact absurd rfl hn
  · exact absurd rfl ha
  · decide
  · exact kind_word_accepted k

/-! ### An element step's effect on the record -/

/-- An element step stops with `BUS`, or completes on the last element, or leaves `STATUS` and `RESULT` (R104, R108). -/
theorem elementStep_record (k : Kind) (s : State) :
    ((elementStep k s).status = s.status.stopped .bus ∧ (elementStep k s).result = s.result) ∨
    (s.rem = 1 ∧ (elementStep k s).status = s.status.completed ∧
      (elementStep k s).result = packResult k (elementStep k s).c0 (elementStep k s).c1) ∨
    ((elementStep k s).status = s.status ∧ (elementStep k s).result = s.result) := by
  rcases elementStep_cases k s with ⟨-, h⟩ | ⟨e, -, ⟨hr, h⟩ | ⟨-, -, h⟩ | ⟨-, -, h⟩⟩ <;> rw [h]
  · exact .inl ⟨rfl, rfl⟩
  · exact .inr (.inl ⟨hr, rfl, rfl⟩)
  · exact .inr (.inr ⟨rfl, rfl⟩)
  · exact .inr (.inr ⟨rfl, rfl⟩)

/-! ### The start of a compute command -/

theorem startError_none_iff {k : Kind} {s : State} :
    startError k (lengthOperands k s.len) s.src = none ↔ StartPasses k s := by
  rcases startError_cases k (lengthOperands k s.len) s.src with ⟨h, hw, hodd⟩ | ⟨h, -, hlen⟩ | ⟨h, heven, hlen⟩
  · simp only [h, reduceCtorEq, false_iff]
    rintro ⟨heven, -⟩
    have := heven hw
    omega
  · simp only [h, reduceCtorEq, false_iff]
    rintro ⟨-, hfit⟩
    exact absurd hlen (Nat.not_lt.2 hfit)
  · simp only [h, true_iff]
    exact ⟨heven, hlen⟩

/-- The code of a failed start check is one of the recorded ones (R163). -/
theorem startError_ne_none_code {k : Kind} {o : LengthOperands} {src : Word} {code : ECode}
    (h : startError k o src = some code) : code ≠ .none := by
  rcases startError_cases k o src with ⟨hc, -⟩ | ⟨hc, -⟩ | ⟨hc, -⟩ <;> rw [hc] at h <;> cases h <;> decide

/-- The state a start works on: the command taken off the list, the status cleared, `MODE` written (R102). -/
def State.modeWritten (s : State) (k : Kind) : State :=
  s.popped.withStatus (s.status.cleared.withMode (some k))

/-! ### Everything a step can do to the engine -/

/-- What a word accepted while idle does (R100, R102, R103, R152, R153). -/
inductive AcceptCase (v : Word) (s t : State) : Prop
  /-- An illegal word (R153). -/
  | illegalWord (illegal : 6 ≤ v.toNat) (result : t = errorStop .illegal (statusClear s.popped))
  /-- `CLEAR` (R152). -/
  | cleared (word : v = 5) (result : t = clearRecord (statusClear s.popped))
  /-- A compute command that a start check stops (R102, R163). -/
  | startStopped (k : Kind) (word : v = encode k.instr) (code : ECode)
      (check : startError k (lengthOperands k s.len) s.src = some code) (result : t = errorStop code (s.modeWritten k))
  /-- A compute command over no element (R103). -/
  | zeroLength (k : Kind) (word : v = encode k.instr) (passes : StartPasses k s) (count : elementCount k s = 0)
      (result : t = zeroLengthComplete (loadOperands k (lengthOperands k s.len) (s.modeWritten k)))
  /-- A compute command that runs (R102). -/
  | started (k : Kind) (word : v = encode k.instr) (passes : StartPasses k s) (count : elementCount k s ≠ 0)
      (result : t = (loadOperands k (lengthOperands k s.len) (s.modeWritten k)).withStatus
        (s.modeWritten k).status.running)

/-- What a step does to the engine: nothing, an element step, or one of the effects of R100 or R180. -/
inductive EngineCase (s t : State) : Prop
  /-- Host traffic, an idle turn, `NOP`, or `ABORT` while idle. -/
  | quiet (same : SameEngine s t)
  /-- An element step (R104). -/
  | element (k : Kind) (next : s.NextEngine) (busy : s.status.busy = true) (mode : s.status.mode = some k)
      (result : t = elementStep k s.popped)
  /-- `ABORT` while busy (R151). -/
  | aborted (next : s.NextCommand 4) (busy : s.status.busy = true) (result : t = errorStop .aborted s.popped)
  /-- A word dropped while busy (R100). -/
  | dropped (v : Word) (next : s.NextCommand v) (word : v ≠ 0 ∧ v ≠ 4) (busy : s.status.busy = true)
      (result : t = dropCommand s.popped)
  /-- A word accepted while idle (R100). -/
  | accepted (v : Word) (next : s.NextCommand v) (word : v ≠ 0 ∧ v ≠ 4) (idle : s.status.busy = false)
      (effect : AcceptCase v s t)
  /-- A reset (R180). -/
  | reset (next : s.NextReset) (result : t = hardReset s.popped)

theorem sameEngine_popped (s : State) : SameEngine s s.popped := ⟨rfl, rfl, rfl, rfl, rfl, rfl, rfl, rfl⟩

/-- The three ends of an accepted compute command (R102, R103). -/
theorem acceptCase_start (k : Kind) (s : State) :
    AcceptCase (encode k.instr) s (start k (lengthOperands k s.len) (statusClear s.popped)) := by
  rcases start_cases k (lengthOperands k s.len) (statusClear s.popped) with
    ⟨code, hc, ht⟩ | ⟨hc, hn, ht⟩ | ⟨hc, hn, ht⟩
  · exact .startStopped k rfl code hc ht
  · exact .zeroLength k rfl (startError_none_iff.1 hc) hn ht
  · exact .started k rfl (startError_none_iff.1 hc) hn ht

/-- A legal word written to `CTRL`, by R100's cases. -/
theorem engineCase_command {i : Instr} {s t : State} (next : s.NextCommand (encode i))
    (h : exec i s.popped = .next t) : EngineCase s t := by
  cases exec_cases h with
  | noEffect which result => exact .quiet (result ▸ sameEngine_popped s)
  | aborted which busy result => subst which; exact .aborted next busy result
  | dropped notNop notAbort busy result => exact .dropped _ next (word_accepted notNop notAbort) busy result
  | cleared which idle result => subst which; exact .accepted _ next (by decide) idle (.cleared rfl result)
  | started k which idle result =>
    subst which result
    exact .accepted _ next (kind_word_accepted k) idle (acceptCase_start k s)

/-- An illegal word written to `CTRL`, by R100's cases. -/
theorem engineCase_illegalWord {v : Word} {s : State} (next : s.NextCommand v) (illegal : 6 ≤ v.toNat) :
    EngineCase s (acceptOrDrop (errorStop .illegal) s.popped) := by
  cases hb : s.status.busy with
  | true => exact .dropped v next (illegal_word_accepted illegal) hb (acceptOrDrop_busy _ hb)
  | false => exact .accepted v next (illegal_word_accepted illegal) hb (.illegalWord illegal (acceptOrDrop_idle _ hb))

/-- The inversion lemma of `step`, as the engine sees it. -/
theorem engine_cases {s t : State} (h : step s = .next t) : EngineCase s t := by
  cases step_cases h with
  | element k next busy mode result => exact .element k next busy mode result
  | command i next result => exact engineCase_command next result
  | illegalWord v next illegal result => exact result ▸ engineCase_illegalWord next illegal
  | reset next result => exact .reset next result
  | idleTurn _ _ result
  | writeSrc _ _ result
  | writeLen _ _ result
  | writeIntEn _ _ result
  | ignored _ _ _ _ result
  | read _ _ result
  | memWrite _ _ _ result
  | memRead _ _ result => exact .quiet (result ▸ sameEngine_popped s)

/-- An accepted word leaves no overrun (R101). -/
theorem AcceptCase.ovr_clear {v : Word} {s t : State} (h : AcceptCase v s t) : t.status.ovr = false := by
  cases h with
  | illegalWord _ result | cleared _ result | startStopped _ _ _ _ result | zeroLength _ _ _ _ result
  | started _ _ _ _ result => rw [result]; rfl

/-- The engine's turn while it is idle changes nothing (R172; log entry 2). -/
theorem step_idleTurn {s : State} (next : s.NextEngine) (idle : s.status.busy = false) : step s = .next s.popped := by
  rw [step_engine next, engineTurn, popped_status, idle]
  rfl

/-- Data memory changes only by the host's own write (R54, R62). -/
theorem step_mem {s t : State} (h : step s = .next t) :
    t.mem = s.mem ∨ ∃ a b, s.pending.head? = some (.memWrite a b) ∧ t.mem = s.mem.write a.toNat b := by
  cases step_cases h with
  | memWrite a b next result => exact .inr ⟨a, b, next, by rw [result]; rfl⟩
  | element k _ _ _ result =>
    obtain ⟨-, -, -, hmem, -⟩ := elementStep_frame k s.popped
    exact .inl (result ▸ hmem)
  | command i _ result =>
    obtain ⟨-, -, -, hmem, -⟩ := exec_frame result
    exact .inl hmem
  | illegalWord _ _ _ result => rw [result]; unfold acceptOrDrop; split <;> exact .inl rfl
  | idleTurn _ _ result
  | writeSrc _ _ result
  | writeLen _ _ result
  | writeIntEn _ _ result
  | ignored _ _ _ _ result
  | read _ _ result
  | memRead _ _ result
  | reset _ result => rw [result]; exact .inl rfl

end Sys2Proof.Machine

/-! SUPPORT. The invariants of 10_state.md R44 under each operation a step is made of. -/

namespace Sys2Proof.Machine

/-! ### Elements and their bounds -/

theorem element16_toNat_le (o : WordOrder) (b0 b1 : Byte) : (element16 o b0 b1).toNat ≤ 65535 := by
  have h01 := (b0 ++ b1).isLt
  have h10 := (b1 ++ b0).isLt
  cases o <;> simp only [element16, BitVec.toNat_setWidth] <;> omega

/-- An element is at most the modulus (R99, R105), which the bounds of R44 (e) rest on. -/
theorem readElement_value_le {k : Kind} {s : State} {e : Element} (h : readElement k s = some e) :
    e.value.toNat ≤ modulus k := by
  have hwide : ∀ b0 b1, k ≠ .f16 → (element16 s.platform.wordOrder b0 b1).toNat ≤ modulus k := by
    intro b0 b1 hk
    have := element16_toNat_le s.platform.wordOrder b0 b1
    cases k with
    | f16 => exact absurd rfl hk
    | f32b | f32w => exact this
  unfold readElement at h
  split at h
  · next hk =>
    subst hk
    split at h <;> cases h
    have := (s.memByte s.ptr).isLt
    simp only [BitVec.toNat_setWidth, modulus]
    omega
  · next hk =>
    split at h <;> split at h <;> cases h
    · exact hwide _ _ hk
    · exact hwide _ _ hk

/-- An element other than the last takes one byte, or two if elements are 16 bits wide (R105). -/
theorem readElement_bytes {k : Kind} {s : State} {e : Element} (h : readElement k s = some e) (hr : s.rem ≠ 1) :
    e.bytes.toNat = if wideElements k then 2 else 1 := by
  have hnopad : ¬ (s.rem = 1 ∧ s.pad = true) := fun hp => hr hp.1
  unfold readElement at h
  rw [if_neg hnopad] at h
  split at h
  · next hk => subst hk; split at h <;> cases h; rfl
  · next hk =>
    have hw : wideElements k = true := by
      cases k with
      | f16 => exact absurd rfl hk
      | f32b | f32w => rfl
    split at h <;> cases h
    rw [if_pos hw]; rfl

/-! ### A running command -/

/-- Two states with the same engine are running alike. -/
theorem State.Running.congr {k : Kind} {s t : State} (h : s.Running k) (same : SameEngine s t) : t.Running k := by
  obtain ⟨hst, -, hc0, hc1, hptr, hrem, hblk, hpad⟩ := same
  constructor
  · exact hst ▸ h.mode
  · exact hst ▸ h.record
  · exact hrem ▸ h.rem_pos
  · exact hblk ▸ h.blk_range
  · exact hpad ▸ h.pad_kind
  · simpa only [sinceReduction, ← hblk, ← hc0] using h.c0_bound
  · simpa only [sinceReduction, ← hblk, ← hc1] using h.c1_bound
  · exact hptr ▸ h.aligned
  · simpa only [bytesLeft, ← hptr, ← hrem, ← hpad] using h.in_space

/-- A dropped command leaves the running one as it was (R100). -/
theorem State.Running.dropCommand {k : Kind} {s : State} (h : s.Running k) : (dropCommand s).Running k :=
  ⟨h.mode, h.record, h.rem_pos, h.blk_range, h.pad_kind, h.c0_bound, h.c1_bound, h.aligned, h.in_space⟩

theorem elementCount_lt (k : Kind) (s : State) : elementCount k s < 2 ^ 32 := by
  have := s.len.isLt
  cases k <;> simp only [elementCount, lengthOperands, lengthF16, lengthF32B, lengthF32W] <;> omega

/-- `REM` holds the element count of a start without wrap (R102). -/
theorem loadOperands_rem_toNat (k : Kind) (s u : State) :
    (loadOperands k (lengthOperands k s.len) u).rem.toNat = elementCount k s :=
  Nat.mod_eq_of_lt (elementCount_lt k s)

/-- The bytes a start has before it are those its `LENGTH` check counts (R102, R121, R131, R133). -/
theorem loadOperands_bytesLeft (k : Kind) (s u : State) :
    bytesLeft k (loadOperands k (lengthOperands k s.len) u) = byteCount k s := by
  unfold bytesLeft
  rw [loadOperands_rem_toNat]
  cases k with
  | f16 | f32w => rfl
  | f32b =>
    have hpad : (s.len.toNat % 2 == 1).toNat = s.len.toNat % 2 := by
      rcases Nat.mod_two_eq_zero_or_one s.len.toNat with h | h <;> rw [h] <;> rfl
    show 2 * ((s.len.toNat + 1) / 2) - (s.len.toNat % 2 == 1).toNat = s.len.toNat
    omega

/-- A start that passes its checks over some element leaves a running command (R102). -/
theorem start_running {k : Kind} {s : State} (passes : StartPasses k s) (count : elementCount k s ≠ 0) :
    ((loadOperands k (lengthOperands k s.len) (s.modeWritten k)).withStatus (s.modeWritten k).status.running).Running
      k := by
  obtain ⟨heven, hfit⟩ := passes
  have hblk : (BitVec.ofNat 32 (blockLength k)).toNat = blockLength k := by cases k <;> rfl
  constructor
  case mode => rfl
  case record => exact ⟨rfl, rfl, rfl⟩
  case rem_pos => exact (loadOperands_rem_toNat k s (s.modeWritten k)).symm ▸ Nat.pos_of_ne_zero count
  case blk_range => exact ⟨hblk.symm ▸ blockLength_pos k, hblk.le⟩
  case pad_kind =>
    cases k with
    | f16 | f32w => exact fun h => nomatch h
    | f32b => exact fun _ => rfl
  case c0_bound => exact Nat.zero_le _
  case c1_bound => exact Nat.zero_le _
  case aligned => exact heven
  case in_space => exact (loadOperands_bytesLeft k s (s.modeWritten k)).symm ▸ hfit

/-- The state after an element has been accumulated and the cursor moved (R104, R106). -/
def State.taken (s : State) (e : Element) : State := advance e.bytes (accumulate e.value s)

/-- An element other than the last leaves the cursor on an element inside the buffer (R44 (d), R56, R57). -/
theorem State.Running.taken_cursor {k : Kind} {s : State} {e : Element} (h : s.Running k)
    (read : readElement k s = some e) (hr : s.rem ≠ 1) :
    1 ≤ (s.taken e).rem.toNat ∧ (wideElements k = true → (s.taken e).ptr.toNat % 2 = 0) ∧
    (s.taken e).ptr.toNat + bytesLeft k (s.taken e) ≤ 2 ^ 32 := by
  have hbytes := readElement_bytes read hr
  have hpos := h.rem_pos
  have haligned := h.aligned
  have hspace := h.in_space
  have hpad : s.pad.toNat ≤ 1 := Bool.toNat_le _
  have hr' : s.rem.toNat ≠ 1 := fun h1 => hr (BitVec.eq_of_toNat_eq h1)
  have hrem : (s.rem - 1).toNat = s.rem.toNat - 1 := by bv_omega
  show 1 ≤ (s.rem - 1).toNat ∧ (wideElements k = true → (s.ptr + e.bytes).toNat % 2 = 0) ∧
    (s.ptr + e.bytes).toNat + (if wideElements k then 2 * (s.rem - 1).toNat - s.pad.toNat else (s.rem - 1).toNat) ≤ _
  unfold bytesLeft at hspace
  rw [hrem, BitVec.toNat_add, hbytes]
  cases hw : wideElements k
  · simp only [hw, Bool.false_eq_true, if_false, false_implies, true_and] at hspace ⊢
    omega
  · simp only [hw, if_true, true_implies] at hspace haligned ⊢
    omega

/-- The triangular number in the bound of `C1` grows by one row. -/
theorem triangle_succ (j : Nat) : (j + 1) * (j + 1 + 1) / 2 = j * (j + 1) / 2 + (j + 1) := by
  simpa [Nat.mul_comm] using Nat.triangle_succ (j + 1)

/-- The bounds of R44 (e) after one more element that is not reduced: neither sum needs the add not to wrap. -/
theorem accumulate_bounds {m j : Nat} {c0 c1 e : Word} (he : e.toNat ≤ m)
    (h0 : c0.toNat ≤ (m - 1) + j * m) (h1 : c1.toNat ≤ (m - 1) + j * (m - 1) + m * (j * (j + 1) / 2)) :
    (c0 + e).toNat ≤ (m - 1) + (j + 1) * m ∧
    (c1 + (c0 + e)).toNat ≤ (m - 1) + (j + 1) * (m - 1) + m * ((j + 1) * (j + 1 + 1) / 2) := by
  have hc0 : (c0 + e).toNat ≤ c0.toNat + e.toNat := BitVec.toNat_add c0 e ▸ Nat.mod_le _ _
  have hc1 : (c1 + (c0 + e)).toNat ≤ c1.toNat + (c0 + e).toNat := BitVec.toNat_add c1 (c0 + e) ▸ Nat.mod_le _ _
  have hj : (j + 1) * m = j * m + m := Nat.succ_mul j m
  have hj' : (j + 1) * (m - 1) = j * (m - 1) + (m - 1) := Nat.succ_mul j (m - 1)
  rw [triangle_succ, Nat.mul_add, Nat.mul_comm m (j + 1)]
  omega

/-- An element inside a block leaves a running command (R104). -/
theorem State.Running.inner {k : Kind} {s : State} {e : Element} (h : s.Running k)
    (read : readElement k s = some e) (hr : s.rem ≠ 1) (hb : s.blk ≠ 1) : (s.taken e).Running k := by
  obtain ⟨hrem, haligned, hspace⟩ := h.taken_cursor read hr
  obtain ⟨hlo, hhi⟩ := h.blk_range
  have hb' : s.blk.toNat ≠ 1 := fun h1 => hb (BitVec.eq_of_toNat_eq h1)
  have hblk : (s.blk - 1).toNat = s.blk.toNat - 1 := by bv_omega
  have hj : sinceReduction k (s.taken e) = sinceReduction k s + 1 := by
    show blockLength k - (s.blk - 1).toNat = blockLength k - s.blk.toNat + 1
    omega
  obtain ⟨hc0, hc1⟩ := accumulate_bounds (readElement_value_le read) h.c0_bound h.c1_bound
  refine ⟨h.mode, h.record, hrem, ?_, h.pad_kind, hj ▸ hc0, hj ▸ hc1, haligned, hspace⟩
  show 1 ≤ (s.blk - 1).toNat ∧ (s.blk - 1).toNat ≤ blockLength k
  omega

/-- The last element of a block, but not of the input, leaves a running command with reduced sums (R107). -/
theorem State.Running.block {k : Kind} {s : State} {e : Element} (h : s.Running k)
    (read : readElement k s = some e) (hr : s.rem ≠ 1) : (reduce k (s.taken e)).Running k := by
  obtain ⟨hrem, haligned, hspace⟩ := h.taken_cursor read hr
  have hblk : (reduce k (s.taken e)).blk.toNat = blockLength k := by cases k <;> rfl
  have hreduced : ∀ c, (reduceWord k c).toNat ≤ modulus k - 1 := fun c => by
    rw [reduceWord_toNat]
    exact Nat.le_sub_one_of_lt (Nat.mod_lt _ (modulus_pos k))
  have hpos := blockLength_pos k
  exact ⟨h.mode, h.record, hrem, by omega, h.pad_kind, Nat.le_add_right_of_le (hreduced _),
    Nat.le_add_right_of_le (Nat.le_add_right_of_le (hreduced _)), haligned, hspace⟩

/-! ### The invariants -/

/-- An idle state with no error recorded meets the invariants. -/
theorem inv_of_idle {s : State} (idle : s.status.busy = false) (err : s.status.err = false)
    (ecode : s.status.ecode = .none) (mem : s.mem.wf) : s.Inv :=
  ⟨by simp [err, ecode], by simp [err], by simp [idle], mem⟩

/-- The invariants of a running state. -/
theorem State.Running.inv {k : Kind} {s : State} (h : s.Running k) (mem : s.mem.wf) : s.Inv := by
  obtain ⟨hdone, herr, hecode⟩ := h.record
  exact ⟨by simp [herr, hecode], by simp [hdone], fun _ => ⟨k, h⟩, mem⟩

/-- An error stop with a code meets the invariants, whatever was there before (R162). -/
theorem errorStop_inv {code : ECode} (hc : code ≠ .none) {s : State} (mem : s.mem.wf) : (errorStop code s).Inv :=
  ⟨⟨fun _ => hc, fun _ => rfl⟩, fun h => Bool.noConfusion h.1, fun busy => Bool.noConfusion busy, mem⟩

/-- A running command has the kind `MODE` names. -/
theorem State.Inv.running_mode {s : State} {k : Kind} (h : s.Inv) (busy : s.status.busy = true)
    (mode : s.status.mode = some k) : s.Running k := by
  obtain ⟨k', hk'⟩ := h.running busy
  cases hk'.mode.symm.trans mode
  exact hk'

/-- The state with its first transition taken off meets the invariants. -/
theorem State.Inv.popped {s : State} (h : s.Inv) : s.popped.Inv :=
  ⟨h.err_iff_ecode, h.not_done_and_err,
    fun busy => (h.running busy).imp fun _ hk => hk.congr (sameEngine_popped s), h.memory⟩

/-- An element step of a running command keeps the invariants (R104). -/
theorem elementStep_inv {k : Kind} {s : State} (h : s.Running k) (mem : s.mem.wf) : (elementStep k s).Inv := by
  obtain ⟨-, herr, hecode⟩ := h.record
  rcases elementStep_cases k s with ⟨-, ht⟩ | ⟨e, read, ⟨-, ht⟩ | ⟨hr, -, ht⟩ | ⟨hr, hb, ht⟩⟩ <;> rw [ht]
  · exact errorStop_inv (by decide) mem
  · exact inv_of_idle rfl herr hecode mem
  · exact (h.block read hr).inv mem
  · exact (h.inner read hr hb).inv mem

/-- A word accepted while idle keeps the invariants (R100). -/
theorem AcceptCase.inv {v : Word} {s t : State} (h : AcceptCase v s t) (idle : s.status.busy = false)
    (mem : s.mem.wf) : t.Inv := by
  cases h with
  | illegalWord _ result => exact result ▸ errorStop_inv (by decide) mem
  | cleared _ result => rw [result]; exact inv_of_idle idle rfl rfl mem
  | startStopped k _ code check result => exact result ▸ errorStop_inv (startError_ne_none_code check) mem
  | zeroLength k _ _ _ result => rw [result]; exact inv_of_idle rfl rfl rfl mem
  | started k _ passes count result => rw [result]; exact (start_running passes count).inv mem

/-- Every step keeps the canonical form of data memory. -/
theorem step_mem_wf {s t : State} (h : step s = .next t) (mem : s.mem.wf) : t.mem.wf := by
  rcases step_mem h with hm | ⟨a, b, -, hm⟩ <;> rw [hm]
  · exact mem
  · exact write_wf _ mem _ a.isLt b

/-- The engine of a state that meets the invariants, over any memory in canonical form. -/
theorem State.Inv.congr {s t : State} (h : s.Inv) (same : SameEngine s t) (mem : t.mem.wf) : t.Inv := by
  have hst : s.status = t.status := same.1
  exact ⟨hst ▸ h.err_iff_ecode, hst ▸ h.not_done_and_err,
    fun busy => (h.running (hst ▸ busy)).imp fun _ hk => hk.congr same, mem⟩

theorem step_inv {s t : State} (h : s.Inv) (ht : step s = .next t) : t.Inv := by
  cases engine_cases ht with
  | quiet same => exact h.congr same (step_mem_wf ht h.memory)
  | element k _ busy mode result => exact result ▸ elementStep_inv (h.popped.running_mode busy mode) h.memory
  | aborted _ _ result => exact result ▸ errorStop_inv (by decide) h.memory
  | dropped _ _ _ busy result =>
    obtain ⟨k, hk⟩ := h.popped.running busy
    exact result ▸ hk.dropCommand.inv h.memory
  | accepted _ _ _ idle effect => exact effect.inv idle h.memory
  | reset _ result => rw [result]; exact inv_of_idle rfl rfl rfl h.memory

theorem reset_inv (p : Platform) {m : Memory} (acts : List Action) (mem : m.wf) :
    { State.reset with platform := p, mem := m, pending := acts }.Inv :=
  inv_of_idle rfl rfl rfl mem

end Sys2Proof.Machine

/-! SUPPORT. The statements about the state settled: the invariants, the registers as the host sees them, and what alone
writes each field of `STATUS` and `RESULT`. -/

namespace Sys2Proof.Machine

/-! ### The invariants -/

/-- Settles O38, by the cases of `engine_cases`. -/
theorem everyStepKeepsTheInvariants : Obligations.EveryStepKeepsTheInvariants := fun _ _ => step_inv

/-- Settles O39. -/
theorem resetMeetsTheInvariants : Obligations.ResetMeetsTheInvariants := fun p _ acts mem => reset_inv p acts mem

/-- The bound of `C1` in the rule's own form, without the halved triangular number (R44 (e)). -/
theorem State.Running.c1_bound_doubled {k : Kind} {s : State} (h : s.Running k) :
    2 * s.c1.toNat ≤ 2 * (modulus k - 1) + 2 * (sinceReduction k s * (modulus k - 1)) +
      modulus k * (sinceReduction k s * (sinceReduction k s + 1)) := by
  have hc1 := h.c1_bound
  have hhalf : modulus k * (sinceReduction k s * (sinceReduction k s + 1) / 2) * 2 ≤
      modulus k * (sinceReduction k s * (sinceReduction k s + 1)) := by
    rw [Nat.mul_assoc]
    exact Nat.mul_le_mul_left _ (Nat.div_mul_le_self _ 2)
  omega

/-- Settles O40, by induction on the number of steps, from O39 by O38. -/
theorem everyReachableStateMeetsR44 : Obligations.EveryReachableStateMeetsR44 := by
  intro p m acts n t mem hrun
  have hinv : t.Inv := run_keeps (fun _ _ => step_inv) n (reset_inv p acts mem) hrun
  refine ⟨hinv.err_iff_ecode, hinv.not_done_and_err, fun busy => ?_⟩
  obtain ⟨k, hk⟩ := hinv.running busy
  obtain ⟨hdone, herr, hecode⟩ := hk.record
  obtain ⟨hlo, hhi⟩ := hk.blk_range
  exact ⟨hdone, herr, hecode, hk.rem_pos, fun hp => hk.pad_kind hp ▸ hk.mode, k, hk.mode, hlo, hhi, hk.c0_bound,
    hk.c1_bound_doubled⟩

/-! ### Which steps are answered -/

/-- Every register write is answered. -/
theorem writeReg_next (r : Reg) (v : Word) (s : State) : ∃ t, writeReg r v s = .next t := by
  cases r with
  | ctrl =>
    simp only [writeReg, writeCtrl]
    split
    · exact exec_next _ s
    · exact ⟨_, rfl⟩
  | status | src | len | result | c0 | c1 | inten => exact ⟨_, rfl⟩

/-- The engine's turn is answered in every state that meets the invariants (R44 (c)). -/
theorem State.Inv.engineTurn_next {s : State} (h : s.Inv) : ∃ t, engineTurn s = .next t := by
  unfold engineTurn
  split
  · next busy =>
    obtain ⟨k, hk⟩ := h.running busy
    exact ⟨elementStep k s, by simp [engineStep, hk.mode]⟩
  · exact ⟨s, rfl⟩

/-- A well-formed transition is answered. -/
theorem State.Inv.transition_next {s : State} (h : s.Inv) {act : Action} (hw : act.wf s.platform.base) :
    ∃ t, transition act s = .next t := by
  cases act with
  | write addr width v =>
    obtain ⟨r, hr⟩ := busRegister_wf.2 hw
    simpa only [transition, hostWrite, hr] using writeReg_next r v s
  | read addr width =>
    obtain ⟨r, hr⟩ := busRegister_wf.2 hw
    exact ⟨_, by simp only [transition, hostRead, hr]; rfl⟩
  | memWrite | memRead | reset => exact ⟨_, rfl⟩
  | engine => exact h.engineTurn_next

/-- The window refuses an access that is not well-formed (R51, R52). -/
theorem busRegister_error {p : Platform} {addr width : Nat} (hw : ¬ AccessWf p.base addr width) :
    ∃ why, busRegister p addr width = .error why := by
  cases hb : busRegister p addr width with
  | ok r => exact absurd (busRegister_wf.1 ⟨r, hb⟩) hw
  | error why => exact ⟨why, rfl⟩

/-- A transition that is not well-formed is refused. -/
theorem transition_refused {s : State} {act : Action} (hw : ¬ act.wf s.platform.base) :
    ∃ why, transition act s = .refused why := by
  cases act with
  | write addr width v | read addr width =>
    obtain ⟨why, hwhy⟩ := busRegister_error hw
    exact ⟨why, by simp only [transition, hostWrite, hostRead, hwhy]⟩
  | memWrite | memRead | engine | reset => exact absurd trivial hw

/-- Settles O42: the next transition is none, a well-formed one or one the window refuses. -/
theorem invariantStatesStopOnlyOnRefusedAccesses : Obligations.InvariantStatesStopOnlyOnRefusedAccesses := by
  intro s h
  have answered : (∀ act, s.pending.head? = some act → act.wf s.platform.base) → ∃ t, step s = .next t := by
    intro hw
    cases hh : s.pending.head? with
    | none => exact step_engine (.inl hh) ▸ h.popped.engineTurn_next
    | some act => exact step_head hh ▸ h.popped.transition_next (hw act hh)
  by_cases hw : ∀ act, s.pending.head? = some act → act.wf s.platform.base
  · obtain ⟨t, ht⟩ := answered hw
    rw [ht]
    refine ⟨nofun, nofun, fun ⟨act, hh, hact⟩ => absurd (hw act hh) hact⟩
  · push Not at hw
    obtain ⟨act, hh, hact⟩ := hw
    obtain ⟨why, hwhy⟩ := transition_refused (s := s.popped) hact
    rw [step_head hh, hwhy]
    exact ⟨nofun, fun _ => ⟨act, hh, hact⟩, fun _ => ⟨why, rfl⟩⟩

/-! ### The register window -/

/-- A register read comes next: what the step does then. -/
theorem step_read {s : State} {r : Reg} (h : s.pending.head? = some (.read (regAddr s.platform r) 32)) :
    step s = .next (s.popped.withReturned (.reg r (readReg r s))) := by
  rw [step_head h, transition, hostRead, popped_platform, busRegister_ok.2 ⟨rfl, rfl⟩]
  cases r <;> rfl

/-- Settles O21. -/
theorem hostReadReturnsTheRegister : Obligations.HostReadReturnsTheRegister := by
  intro s r rest h
  have hh : s.pending.head? = some (.read (regAddr s.platform r) 32) := by rw [h]; cases r <;> rfl
  rw [step_read hh, popped_cons h]
  cases r <;> rfl

/-- A register write at the head of a list written out. -/
theorem step_write_cons {s : State} {v : Word} {rest : List Action} (r : Reg)
    (h : s.pending = .write (regAddr s.platform r) 32 v :: rest) :
    step s = writeReg r v { s with pending := rest } := by
  rw [step_write (by rw [h]; rfl), popped_cons h]

/-- Settles O3. -/
theorem stepRunsTheDecodedCommand : Obligations.StepRunsTheDecodedCommand := by
  refine ⟨fun s v i rest h hd => ?_, fun s i => ?_⟩
  · rw [step_write_cons .ctrl h]
    simp only [writeReg, writeCtrl, hd]
  · have hw : tableWord 32 (encode i).toNat = encode i := by cases i <;> rfl
    unfold State.withFetchWord
    rw [hw]
    exact step_command rfl

/-- Settles O22. -/
theorem hostWriteActsByRegister : Obligations.HostWriteActsByRegister := by
  intro s v rest
  refine ⟨step_write_cons .src, step_write_cons .len, step_write_cons .inten, step_write_cons .ctrl, ?_, ?_⟩
  · rintro off (rfl | rfl | rfl | rfl) h
    · exact step_write_cons .status h
    · exact step_write_cons .result h
    · exact step_write_cons .c0 h
    · exact step_write_cons .c1 h
  · intro off t h ht
    rcases step_mem ht with hm | ⟨a, b, hh, -⟩
    · exact hm
    · simp [h] at hh

/-! ### The words of `STATUS` and `INTEN` -/

/-- A concatenation as a number. -/
theorem toNat_append_eq_add {m n : Nat} (x : BitVec m) (y : BitVec n) :
    (x ++ y).toNat = x.toNat * 2 ^ n + y.toNat := by
  rw [BitVec.toNat_append, ← Nat.shiftLeft_add_eq_or_of_lt y.isLt, Nat.shiftLeft_eq]

/-- `STATUS` as a number, each field at its weight (R22). -/
theorem status_word_toNat (st : Status) :
    st.word.toNat = 256 * (modeCode st.mode).toNat + 16 * st.ecode.code.toNat + 8 * st.ovr.toNat + 4 * st.err.toNat +
      2 * st.done.toNat + st.busy.toNat := by
  simp only [Status.word, toNat_append_eq_add, BitVec.toNat_ofBool, BitVec.toNat_zero]
  omega

/-- A bit of a word whose number is known. -/
theorem getLsbD_of_div {w : Word} {i : Nat} {b : Bool} (h : w.toNat / 2 ^ i % 2 = b.toNat) : w.getLsbD i = b := by
  rw [BitVec.getLsbD, Nat.testBit_eq_decide_div_mod_eq, h]
  cases b <;> rfl

/-- Settles O23, from the word's number. -/
theorem statusWordLayout : Obligations.StatusWordLayout := by
  intro s w
  have hw : w.toNat = _ := status_word_toNat s.status
  have hm := (modeCode s.status.mode).isLt
  have he := s.status.ecode.code.isLt
  have hovr := s.status.ovr.toNat_le
  have herr := s.status.err.toNat_le
  have hdone := s.status.done.toNat_le
  have hbusy := s.status.busy.toNat_le
  have hfield : ∀ start len, (w.extractLsb' start len).toNat = w.toNat / 2 ^ start % 2 ^ len := fun start len => by
    rw [BitVec.extractLsb'_toNat, Nat.shiftRight_eq_div_pow]
  have hecode : (w.extractLsb' 4 4).toNat = s.status.ecode.code.toNat := by rw [hfield]; omega
  have hmode : (w.extractLsb' 8 2).toNat = (modeCode s.status.mode).toNat := by rw [hfield]; omega
  refine ⟨getLsbD_of_div ?_, getLsbD_of_div ?_, getLsbD_of_div ?_, getLsbD_of_div ?_, ?_, ?_, ?_⟩
  · omega
  · omega
  · omega
  · omega
  · rw [hecode]; cases s.status.ecode <;> rfl
  · rw [hmode]; rcases s.status.mode with _ | k
    · rfl
    · cases k <;> rfl
  · rw [hfield]; omega

/-- `INTEN` stores bits 1:0 of what is written (R35). -/
theorem intEnOf_word_toNat (v : Word) : (intEnOf v).word.toNat = v.toNat % 4 := by
  have h0 : (v.getLsbD 0).toNat = v.toNat / 2 ^ 0 % 2 := Nat.toNat_testBit _ _
  have h1 : (v.getLsbD 1).toNat = v.toNat / 2 ^ 1 % 2 := Nat.toNat_testBit _ _
  simp only [IntEn.word, intEnOf, toNat_append_eq_add, BitVec.toNat_ofBool, BitVec.toNat_zero]
  omega

/-- Settles O24. -/
theorem intEnWriteGatesTheLineAtOnce : Obligations.IntEnWriteGatesTheLineAtOnce := by
  intro s v rest h
  exact ⟨_, step_write_cons .inten h, intEnOf_word_toNat v, rfl⟩

/-! ### The engine's turn -/

/-- Settles O16, from the frame of an element step and its effect on the record. -/
theorem elementStepFrame : Obligations.ElementStepFrame := by
  intro s t next h
  rw [step_engine next] at h
  rcases engineTurn_cases h with ⟨idle, rfl⟩ | ⟨busy, k, -, rfl⟩
  · exact ⟨rfl, rfl, rfl, rfl, rfl, rfl, rfl, fun _ => rfl, rfl, rfl, fun _ => rfl, fun _ => rfl⟩
  · obtain ⟨hsrc, hlen, hinten, hmem, hplat, hpend, hret, hpad, hmode, hovr⟩ := elementStep_frame k s.popped
    refine ⟨hsrc, hlen, hinten, hplat, hret, hpend, hpad, fun a => by rw [hmem]; rfl, hovr, hmode, fun hne => ?_,
      fun idle => absurd busy (by simp [idle])⟩
    rcases elementStep_record k s.popped with ⟨-, hres⟩ | ⟨-, hst, -⟩ | ⟨-, hres⟩
    · exact hres
    · simp [hst] at hne
    · exact hres

/-! ### What alone writes each field of the record -/

/-- `BUSY` rises only at a start with elements (R23). -/
theorem step_busy_rises {s t : State} (h : step s = .next t) (idle : s.status.busy = false)
    (rise : t.status.busy = true) :
    ∃ k : Kind, s.NextCommand (encode k.instr) ∧ StartPasses k s ∧ elementCount k s ≠ 0 := by
  cases engine_cases h with
  | quiet same => simp [← same.1, idle] at rise
  | element _ _ busy | aborted _ busy | dropped _ _ _ busy => simp [idle] at busy
  | reset _ result => subst result; cases rise
  | accepted v next word _ effect =>
    cases effect with
    | started k word passes count => exact ⟨k, word ▸ next, passes, count⟩
    | illegalWord _ result | startStopped _ _ _ _ result | zeroLength _ _ _ _ result => subst result; cases rise
    | cleared _ result => subst result; cases idle.symm.trans rise

/-- `BUSY` falls only at completion, an error stop or reset (R23). -/
theorem step_busy_falls {s t : State} (h : step s = .next t) (busy : s.status.busy = true)
    (fall : t.status.busy = false) :
    (s.NextEngine ∧ s.rem = 1 ∧ t.status.done = true) ∨
    (s.NextEngine ∧ t.status.err = true ∧ t.status.ecode = .bus) ∨
    (s.NextCommand 4 ∧ t.status.err = true ∧ t.status.ecode = .aborted) ∨
    (s.NextReset ∧ t.status.done = false ∧ t.status.err = false) := by
  cases engine_cases h with
  | quiet same => simp [← same.1, busy] at fall
  | element k next _ _ result =>
    subst result
    rcases elementStep_record k s.popped with ⟨hst, -⟩ | ⟨hr, hst, -⟩ | ⟨hst, -⟩
    · exact .inr (.inl ⟨next, by simp [hst], by simp [hst]⟩)
    · exact .inl ⟨next, hr, by simp [hst]⟩
    · simp [hst, busy] at fall
  | aborted next _ result => subst result; exact .inr (.inr (.inl ⟨next, rfl, rfl⟩))
  | dropped _ _ _ _ result => subst result; cases busy.symm.trans fall
  | accepted _ _ _ idle => simp [busy] at idle
  | reset next result => subst result; exact .inr (.inr (.inr ⟨next, rfl, rfl⟩))

/-- Settles O30. -/
theorem busyChangesOnlyByStartStopReset : Obligations.BusyChangesOnlyByStartStopReset := by
  refine fun s t h => ⟨step_busy_rises h, step_busy_falls h, fun idle next => ?_⟩
  cases (step_idleTurn next idle).symm.trans h
  rfl

/-- `DONE` rises only at a completion, with `RESULT` written (R24). -/
theorem step_done_rises {s t : State} (h : step s = .next t) (low : s.status.done = false)
    (rise : t.status.done = true) :
    (s.NextEngine ∧ s.status.busy = true ∧ s.rem = 1 ∧
      ∃ k, s.status.mode = some k ∧ t.result = packResult k t.c0 t.c1) ∨
    (s.status.busy = false ∧ t.result = 0 ∧
      ∃ k : Kind, s.NextCommand (encode k.instr) ∧ StartPasses k s ∧ elementCount k s = 0) := by
  cases engine_cases h with
  | quiet same => simp [← same.1, low] at rise
  | element k next busy mode result =>
    subst result
    rcases elementStep_record k s.popped with ⟨hst, -⟩ | ⟨hr, -, hres⟩ | ⟨hst, -⟩
    · simp [hst] at rise
    · exact .inl ⟨next, busy, hr, k, mode, hres⟩
    · simp [hst, low] at rise
  | aborted _ _ result | reset _ result => subst result; cases rise
  | dropped _ _ _ _ result => subst result; cases low.symm.trans rise
  | accepted v next word idle effect =>
    cases effect with
    | zeroLength k word passes count result => subst result; exact .inr ⟨idle, rfl, k, word ▸ next, passes, count⟩
    | illegalWord _ result | cleared _ result | startStopped _ _ _ _ result | started _ _ _ _ result =>
      subst result; cases rise

/-- `DONE` falls only by an accepted command, an error stop or reset (R24). -/
theorem step_done_falls {s t : State} (h : step s = .next t) (high : s.status.done = true)
    (fall : t.status.done = false) :
    (s.status.busy = false ∧ ∃ v, s.NextCommand v ∧ v ≠ 0 ∧ v ≠ 4) ∨
    (s.status.busy = true ∧ t.status.err = true) ∨
    s.NextReset := by
  cases engine_cases h with
  | quiet same => simp [← same.1, high] at fall
  | element k next busy mode result =>
    subst result
    rcases elementStep_record k s.popped with ⟨hst, -⟩ | ⟨-, hst, -⟩ | ⟨hst, -⟩
    · exact .inr (.inl ⟨busy, by simp [hst]⟩)
    · simp [hst] at fall
    · simp [hst, high] at fall
  | aborted _ busy result => subst result; exact .inr (.inl ⟨busy, rfl⟩)
  | dropped _ _ _ _ result => subst result; cases high.symm.trans fall
  | accepted v next word idle => exact .inl ⟨idle, v, next, word⟩
  | reset next => exact .inr (.inr next)

/-- Settles O31. -/
theorem doneChangesOnlyByCompletionAndClear : Obligations.DoneChangesOnlyByCompletionAndClear :=
  fun _ _ h => ⟨step_done_rises h, step_done_falls h⟩

/-- A word other than `NOP` and `ABORT` written while busy is dropped (R100). -/
theorem step_dropped {s : State} {v : Word} (next : s.NextCommand v) (word : v ≠ 0 ∧ v ≠ 4)
    (busy : s.status.busy = true) : step s = .next (dropCommand s.popped) := by
  have hdrop : ∀ f, acceptOrDrop f s.popped = dropCommand s.popped := fun f => acceptOrDrop_busy f busy
  rcases decode_cases v with ⟨i, -, rfl⟩ | ⟨why, hw, -⟩
  · rw [step_command next]
    rcases instr_cases i with rfl | rfl | rfl | ⟨k, rfl⟩
    · exact absurd rfl word.1
    · exact absurd rfl word.2
    · rw [exec, execClear, hdrop]
    · rw [exec_kind, hdrop]
  · rw [step_write next]
    simp only [writeReg, writeCtrl, hw, illegalCommand, hdrop]

/-- `OVR` rises only by a dropped command, which does nothing else (R26, R166). -/
theorem step_ovr_rises {s t : State} (h : step s = .next t) (low : s.status.ovr = false)
    (rise : t.status.ovr = true) :
    s.status.busy = true ∧ (∃ v, s.NextCommand v ∧ v ≠ 0 ∧ v ≠ 4) ∧ t = dropCommand s.popped := by
  cases engine_cases h with
  | dropped v next word busy result => exact ⟨busy, ⟨v, next, word⟩, result⟩
  | quiet same => simp [← same.1, low] at rise
  | element k _ _ _ result =>
    obtain ⟨-, -, -, -, -, -, -, -, -, hovr⟩ := elementStep_frame k s.popped
    simp [result, hovr, low] at rise
  | aborted _ _ result => subst result; cases low.symm.trans rise
  | accepted _ _ _ _ effect => simp [effect.ovr_clear] at rise
  | reset _ result => subst result; cases rise

/-- `OVR` falls only by an accepted command or reset (R26). -/
theorem step_ovr_falls {s t : State} (h : step s = .next t) (high : s.status.ovr = true)
    (fall : t.status.ovr = false) :
    (s.status.busy = false ∧ ∃ v, s.NextCommand v ∧ v ≠ 0 ∧ v ≠ 4) ∨ s.NextReset := by
  cases engine_cases h with
  | accepted v next word idle => exact .inl ⟨idle, v, next, word⟩
  | reset next => exact .inr next
  | quiet same => simp [← same.1, high] at fall
  | element k _ _ _ result =>
    obtain ⟨-, -, -, -, -, -, -, -, -, hovr⟩ := elementStep_frame k s.popped
    simp [result, hovr, high] at fall
  | aborted _ _ result => subst result; cases high.symm.trans fall
  | dropped _ _ _ _ result => subst result; cases fall

/-- Settles O32. -/
theorem ovrIsStickyAndHarmless : Obligations.OvrIsStickyAndHarmless := by
  refine fun s t h => ⟨fun low rise => ?_, fun busy ⟨v, next, word⟩ => ?_, step_ovr_falls h⟩
  · obtain ⟨busy, hword, rfl⟩ := step_ovr_rises h low rise
    exact ⟨busy, hword, rfl, rfl⟩
  · cases (step_dropped next word busy).symm.trans h
    rfl

/-- `MODE` changes only by an accepted compute command, `CLEAR` or reset (R28). -/
theorem step_mode_changes {s t : State} (h : step s = .next t) (hne : t.status.mode ≠ s.status.mode) :
    (s.status.busy = false ∧ ∃ k : Kind, s.NextCommand (encode k.instr) ∧ t.status.mode = some k) ∨
    (s.status.busy = false ∧ s.NextCommand 5 ∧ t.status.mode = none) ∨
    (s.NextReset ∧ t.status.mode = none) := by
  cases engine_cases h with
  | quiet same => simp [← same.1] at hne
  | element k _ _ _ result =>
    obtain ⟨-, -, -, -, -, -, -, -, hmode, -⟩ := elementStep_frame k s.popped
    simp [result, hmode] at hne
  | aborted _ _ result | dropped _ _ _ _ result => subst result; exact absurd rfl hne
  | reset next result => subst result; exact .inr (.inr ⟨next, rfl⟩)
  | accepted v next word idle effect =>
    cases effect with
    | illegalWord _ result => subst result; exact absurd rfl hne
    | cleared word result => subst word result; exact .inr (.inl ⟨idle, next, rfl⟩)
    | startStopped k word _ _ result | zeroLength k word _ _ result | started k word _ _ result =>
      subst word result; exact .inl ⟨idle, k, next, rfl⟩

/-- Settles O34. -/
theorem modeNamesTheLastCommandStarted : Obligations.ModeNamesTheLastCommandStarted := by
  refine ⟨fun s t h hne => step_mode_changes h hne, fun k s idle next => ?_⟩
  rw [step_command next, exec_kind, acceptOrDrop_idle (s := s.popped) _ idle]
  obtain ⟨-, -, -, -, -, -, -, hmode, -⟩ := start_frame k (lengthOperands k s.popped.len) (statusClear s.popped)
  exact ⟨_, rfl, hmode⟩

/-- Settles O36: of the cases of `engine_cases`, only four write `RESULT`. -/
theorem resultWrittenOnlyByCompletionClearReset : Obligations.ResultWrittenOnlyByCompletionClearReset := by
  intro s t h hne
  cases engine_cases h with
  | quiet same => exact absurd same.2.1.symm hne
  | element k next busy mode result =>
    subst result
    rcases elementStep_record k s.popped with ⟨-, hres⟩ | ⟨hr, hst, hres⟩ | ⟨-, hres⟩
    · exact absurd hres hne
    · exact .inl ⟨next, busy, hr, by simp [hst], k, mode, hres⟩
    · exact absurd hres hne
  | aborted _ _ result | dropped _ _ _ _ result => subst result; exact absurd rfl hne
  | reset next result => subst result; exact .inr (.inr (.inr ⟨rfl, next⟩))
  | accepted v next word idle effect =>
    cases effect with
    | illegalWord _ result | startStopped _ _ _ _ result | started _ _ _ _ result =>
      subst result; exact absurd rfl hne
    | cleared word result => subst word result; exact .inr (.inl ⟨rfl, idle, next⟩)
    | zeroLength k word passes count result =>
      subst word result; exact .inr (.inr (.inl ⟨rfl, idle, k, next, passes, count⟩))

end Sys2Proof.Machine

/-! SUPPORT. The statements about memory and the host bus settled: which register accesses are refused, what a memory access
does, what alone changes the state the host owns, and that an idle engine keeps its results. -/

namespace Sys2Proof.Machine

/-! ### Refused accesses -/

/-- The engine's turn may fault, but it is never refused. -/
theorem engineTurn_ne_refused (s : State) (why : Refusal) : engineTurn s ≠ .refused why := by
  unfold engineTurn
  split
  · unfold engineStep
    split <;> nofun
  · nofun

/-- A well-formed transition is not refused, in any state. -/
theorem transition_ne_refused {s : State} {act : Action} (hw : act.wf s.platform.base) (why : Refusal) :
    transition act s ≠ .refused why := by
  cases act with
  | write addr width v =>
    obtain ⟨r, hr⟩ := busRegister_wf.2 hw
    obtain ⟨t, ht⟩ := writeReg_next r v s
    simp [transition, hostWrite, hr, ht]
  | read addr width =>
    obtain ⟨r, hr⟩ := busRegister_wf.2 hw
    simp [transition, hostRead, hr]
  | memWrite | memRead | reset => nofun
  | engine => exact engineTurn_ne_refused s why

/-- Exactly the transitions that are not well-formed are refused (R51, R52). -/
theorem transition_refused_iff {s : State} {act : Action} :
    (∃ why, transition act s = .refused why) ↔ ¬ act.wf s.platform.base :=
  ⟨fun ⟨why, h⟩ hw => transition_ne_refused hw why h, transition_refused⟩

/-- Settles O25. -/
theorem onlyAlignedWindowAccessesAreAnswered : Obligations.OnlyAlignedWindowAccessesAreAnswered := by
  intro s addr width v rest h
  rcases h with h | h <;> rw [step_cons h] <;> exact transition_refused_iff (s := s.popped)

/-! ### Data memory as the host reaches it -/

/-- Settles O28, from `read_write`. -/
theorem hostMemoryAccessesAreBytewise : Obligations.HostMemoryAccessesAreBytewise := by
  intro s a rest mem
  refine ⟨fun b h => ?_, fun h => ?_⟩ <;> rw [step_cons h, popped_cons h]
  · exact ⟨_, rfl, fun x => read_write s.mem mem a.toNat x b, rfl⟩
  · rfl

/-! ### The state the host owns -/

/-- Two states agree on what only the host writes, data memory among it, and on the open parameters (R45, R54). -/
structure SameHostState (s t : State) : Prop where
  src : t.src = s.src
  len : t.len = s.len
  inten : t.inten = s.inten
  mem : t.mem = s.mem
  platform : t.platform = s.platform

/-- What a step does to the state the host owns: nothing, one of the host's four writes, or a reset. -/
inductive HostCase (s t : State) : Prop
  /-- Anything of the engine's, a command, a read, or a write to a read-only register (R45, R54). -/
  | kept (same : SameHostState s t)
  /-- `SRC` written (R42). -/
  | writeSrc (v : Word) (next : s.pending.head? = some (.write (regAddr s.platform .src) 32 v))
      (result : t = s.popped.withSrc v)
  /-- `LEN` written (R42). -/
  | writeLen (v : Word) (next : s.pending.head? = some (.write (regAddr s.platform .len) 32 v))
      (result : t = s.popped.withLen v)
  /-- `INTEN` written (R35, R42). -/
  | writeIntEn (v : Word) (next : s.pending.head? = some (.write (regAddr s.platform .inten) 32 v))
      (result : t = s.popped.withIntEn (intEnOf v))
  /-- A byte of data memory written (R62). -/
  | memWrite (a : Word) (b : Byte) (next : s.pending.head? = some (.memWrite a b))
      (result : t = s.popped.withMem (s.mem.write a.toNat b))
  /-- A reset (R180). -/
  | reset (next : s.NextReset) (result : t = hardReset s.popped)

/-- The inversion lemma of `step`, as the state the host owns sees it. -/
theorem host_cases {s t : State} (h : step s = .next t) : HostCase s t := by
  cases step_cases h with
  | writeSrc v next result => exact .writeSrc v next result
  | writeLen v next result => exact .writeLen v next result
  | writeIntEn v next result => exact .writeIntEn v next result
  | memWrite a b next result => exact .memWrite a b next result
  | reset next result => exact .reset next result
  | element k _ _ _ result =>
    obtain ⟨hsrc, hlen, hinten, hmem, hplat, -⟩ := elementStep_frame k s.popped
    exact .kept (result ▸ ⟨hsrc, hlen, hinten, hmem, hplat⟩)
  | command i _ result =>
    obtain ⟨hsrc, hlen, hinten, hmem, hplat, -⟩ := exec_frame result
    exact .kept ⟨hsrc, hlen, hinten, hmem, hplat⟩
  | illegalWord _ _ _ result =>
    rw [result]
    unfold acceptOrDrop
    split <;> exact .kept ⟨rfl, rfl, rfl, rfl, rfl⟩
  | idleTurn _ _ result
  | ignored _ _ _ _ result
  | read _ _ result
  | memRead _ _ result => subst result; exact .kept ⟨rfl, rfl, rfl, rfl, rfl⟩

/-- Settles O29, by the cases of `host_cases`. -/
theorem onlyTheHostWritesHostState : Obligations.OnlyTheHostWritesHostState := by
  intro s t h
  cases host_cases h with
  | kept same =>
    exact ⟨(absurd same.src ·), (absurd same.len ·), (absurd same.inten ·), (absurd same.mem ·), same.platform⟩
  | writeSrc v next result =>
    subst result
    exact ⟨fun _ => .inl next, (absurd rfl ·), (absurd rfl ·), (absurd rfl ·), rfl⟩
  | writeLen v next result =>
    subst result
    exact ⟨(absurd rfl ·), fun _ => .inl next, (absurd rfl ·), (absurd rfl ·), rfl⟩
  | writeIntEn v next result =>
    subst result
    exact ⟨(absurd rfl ·), (absurd rfl ·), fun _ => .inl ⟨v, next, intEnOf_word_toNat v⟩, (absurd rfl ·), rfl⟩
  | memWrite a b next result =>
    subst result
    exact ⟨(absurd rfl ·), (absurd rfl ·), (absurd rfl ·), fun _ => ⟨a, b, next⟩, rfl⟩
  | reset next result =>
    subst result
    exact ⟨fun _ => .inr ⟨next, rfl⟩, fun _ => .inr ⟨next, rfl⟩, fun _ => .inr ⟨next, rfl⟩, (absurd rfl ·), rfl⟩

/-! ### The engine's state while idle -/

/-- Settles O35: of the cases of `engine_cases`, an idle state leaves only the quiet one, an accepted word and a reset. -/
theorem resultsStayUntilTheNextCommand : Obligations.ResultsStayUntilTheNextCommand := by
  intro s t idle h noReset harmless
  cases engine_cases h with
  | quiet same => exact same
  | element _ _ busy | aborted _ busy | dropped _ _ _ busy => simp [idle] at busy
  | accepted v next word =>
    obtain ⟨notNop, notAbort⟩ := word
    exact absurd (harmless v next) (not_or.2 ⟨notNop, notAbort⟩)
  | reset next => exact absurd next noReset

end Sys2Proof.Machine

/-! SUPPORT. The statements about the encoding settled (30_encoding.md R71, R72, R74), from the laws that say once
what the decoder answers: the encoder's words are the commands, and every word of 6 or more is illegal. -/

namespace Sys2Proof.Machine

/-! ### Commands and illegal words -/

theorem decode_eq_command_iff {v : Word} {i : Instr} : decode v = .command i ↔ v = encode i :=
  ⟨eq_encode_of_decode, fun h => h ▸ decode_encode i⟩

theorem decode_illegal_iff {v : Word} : (∃ why, decode v = .illegal why) ↔ 6 ≤ v.toNat :=
  ⟨fun ⟨_, h⟩ => illegal_toNat h, decode_of_ge⟩

/-- The number of a compute command in `STATUS.MODE` is its opcode (R28, R71). -/
theorem modeCode_toNat (k : Kind) : (modeCode (some k)).toNat = (encode k.instr).toNat := by
  cases k <;> rfl

/-- Settles O2: the two equivalences, and the numbers of the encoder's words and of the modes. -/
theorem commandWordsAreExactlyTheTable : Obligations.CommandWordsAreExactlyTheTable :=
  ⟨fun _ _ => decode_eq_command_iff, fun _ => decode_illegal_iff, encode_toNat .nop, encode_toNat .f16,
    encode_toNat .f32b, encode_toNat .f32w, encode_toNat .abort, encode_toNat .clear, modeCode_toNat⟩

/-! ### The words of the table -/

/-- At 32 bits the table's word is the number itself. -/
theorem tableWord_toNat (v : Word) : tableWord 32 v.toNat = v := by
  rw [tableWord, Nat.mod_eq_of_lt v.isLt, BitVec.ofNat_toNat, BitVec.setWidth_eq]

theorem decodeTableWord_encode (i : Instr) : decodeTableWord 32 (encode i).toNat = some i := by
  simp [decodeTableWord, tableWord_toNat, decode_encode]

theorem decodeTableWord_of_ge {v : Word} (h : 6 ≤ v.toNat) : decodeTableWord 32 v.toNat = none := by
  obtain ⟨why, hw⟩ := decode_of_ge h
  simp [decodeTableWord, tableWord_toNat, hw]

/-- Settles O1: six words are the encoder's, and the four samples are 6 or more. -/
theorem tableWordsDecodeAsWritten : Obligations.TableWordsDecodeAsWritten :=
  ⟨decodeTableWord_encode .nop, decodeTableWord_encode .f16, decodeTableWord_encode .f32b,
    decodeTableWord_encode .f32w, decodeTableWord_encode .abort, decodeTableWord_encode .clear,
    decodeTableWord_of_ge (v := 0x6) (by decide), decodeTableWord_of_ge (v := 0xF) (by decide),
    decodeTableWord_of_ge (v := 0x11) (by decide), decodeTableWord_of_ge (v := 0x80000001) (by decide)⟩

end Sys2Proof.Machine

/-! SUPPORT. The compute commands and the element step, and the statements about one transition of theirs settled
(40_engine_common.md R99 to R109; 20_memory.md R55, R56). -/

namespace Sys2Proof.Machine

/-! ### A compute command when it is written -/

theorem exec_kind_busy (k : Kind) {s : State} (busy : s.status.busy = true) :
    exec k.instr s = .next (dropCommand s) := by
  rw [exec_kind, acceptOrDrop_busy _ busy]

theorem exec_kind_idle (k : Kind) {s : State} (idle : s.status.busy = false) :
    exec k.instr s = .next (start k (lengthOperands k s.len) (statusClear s)) := by
  rw [exec_kind, acceptOrDrop_idle _ idle]

section
variable {k : Kind} {s : State} (passes : StartPasses k s)
include passes

/-- A start that passes its checks over no element completes at once (R103). -/
theorem start_zeroLength (count : elementCount k s = 0) :
    start k (lengthOperands k s.len) (statusClear s) = zeroLengthComplete
      (loadOperands k (lengthOperands k s.len) (s.withStatus (s.status.cleared.withMode (some k)))) := by
  have hc : startError k (lengthOperands k s.len) (statusClear s).src = none := startError_none_iff.2 passes
  have hn : (lengthOperands k s.len).nelem = 0 := count
  simp only [start, hc, if_pos hn]
  rfl

/-- A start that passes its checks over some element leaves the command running (R102). -/
theorem start_runs (count : elementCount k s ≠ 0) :
    start k (lengthOperands k s.len) (statusClear s) =
      (loadOperands k (lengthOperands k s.len) (s.withStatus (s.status.cleared.withMode (some k)))).withStatus
        (s.status.cleared.withMode (some k)).running := by
  have hc : startError k (lengthOperands k s.len) (statusClear s).src = none := startError_none_iff.2 passes
  have hn : (lengthOperands k s.len).nelem ≠ 0 := count
  simp only [start, hc, if_neg hn]
  rfl

end

/-- Without wrap, only length 0 has no element (R103, R131). -/
theorem elementCount_eq_zero_iff {k : Kind} {s : State} : elementCount k s = 0 ↔ s.len = 0 := by
  have hzero : s.len = 0 ↔ s.len.toNat = 0 := BitVec.toNat_inj.symm
  rw [hzero]
  cases k with
  | f16 | f32w => exact Iff.rfl
  | f32b =>
    show (s.len.toNat + 1) / 2 = 0 ↔ s.len.toNat = 0
    omega

theorem lengthOperands_zero (k : Kind) : lengthOperands k 0 = ⟨0, 0, false⟩ := by cases k <;> rfl

theorem wideElements_iff {k : Kind} : wideElements k = true ↔ k ≠ .f16 := by cases k <;> decide

/-- Settles O11: length 0 passes the `LENGTH` check wherever `SRC` points. -/
theorem zeroLengthCommandCompletesAtOnce : Obligations.ZeroLengthCommandCompletesAtOnce := by
  intro k s idle hlen heven
  have hops : lengthOperands k s.len = ⟨0, 0, false⟩ := hlen ▸ lengthOperands_zero k
  have passes : StartPasses k s :=
    ⟨fun hw => heven (wideElements_iff.1 hw), by unfold byteCount; rw [hops]; exact s.src.isLt.le⟩
  rw [exec_kind_idle k idle, start_zeroLength passes (elementCount_eq_zero_iff.2 hlen), hops]
  cases k <;> rfl

/-- Settles O15: what no command writes is `exec_frame`; the rest by the three ends of a start. -/
theorem computeCommandFrame : Obligations.ComputeCommandFrame := by
  intro k s t h
  obtain ⟨hsrc, hlen, hinten, hmem, hplat, hpend, hret⟩ := exec_frame h
  refine ⟨hsrc, hlen, hinten, hplat, hpend, hret, fun a => by rw [hmem], ?_⟩
  cases hb : s.status.busy with
  | true =>
    cases (exec_kind_busy k hb).symm.trans h
    exact ⟨.inl rfl, fun _ => ⟨rfl, rfl, rfl, rfl, rfl, rfl, rfl⟩, fun _ => rfl⟩
  | false =>
    cases (exec_kind_idle k hb).symm.trans h
    rcases start_cases k (lengthOperands k s.len) (statusClear s) with ⟨_, -, ht⟩ | ⟨-, hn, ht⟩ | ⟨-, -, ht⟩
    all_goals rw [ht]
    · exact ⟨.inl rfl, fun _ => ⟨rfl, rfl, rfl, rfl, rfl, rfl, rfl⟩, nofun⟩
    · exact ⟨.inr ⟨rfl, elementCount_eq_zero_iff.1 hn, rfl, rfl⟩, fun herr => herr.elim nofun nofun, nofun⟩
    · exact ⟨.inl rfl, fun herr => herr.elim nofun nofun, nofun⟩

/-! ### The element read -/

/-- The assembled element is the number of R55. -/
theorem element16_toNat (o : WordOrder) (b0 b1 : Byte) :
    (element16 o b0 b1).toNat = pairValue o b0.toNat b1.toNat := by
  have h0 := b0.isLt
  have h1 := b1.isLt
  cases o <;> simp only [element16, pairValue, BitVec.toNat_setWidth, toNat_append_eq_add] <;> omega

section
variable {k : Kind} {s : State}

theorem readElement_byte (h : s.memReadable s.ptr = true) :
    readElement .f16 s = some ⟨(s.memByte s.ptr).setWidth 32, 1⟩ := by
  simp [readElement, h]

theorem readElement_padded (hk : k ≠ .f16) (last : s.rem = 1 ∧ s.pad = true) (h : s.memReadable s.ptr = true) :
    readElement k s = some ⟨element16 s.platform.wordOrder (s.memByte s.ptr) 0, 1⟩ := by
  simp [readElement, hk, last, h]

theorem readElement_pair (hk : k ≠ .f16) (full : ¬ (s.rem = 1 ∧ s.pad = true)) (h0 : s.memReadable s.ptr = true)
    (h1 : s.memReadable (s.ptr + 1) = true) :
    readElement k s =
      some ⟨element16 s.platform.wordOrder (s.memByte s.ptr) (s.memByte (s.ptr + 1)), 2⟩ := by
  simp only [readElement, hk, full, h0, h1, if_false, Bool.and_self, if_true]

/-- A needed byte that is not readable leaves no element (R105). -/
theorem readElement_unreadable (h : s.memReadable s.ptr = false ∨
    (k ≠ .f16 ∧ ¬ (s.rem = 1 ∧ s.pad = true) ∧ s.memReadable (s.ptr + 1) = false)) : readElement k s = none := by
  rcases h with h | ⟨hk, full, h⟩
  · simp [readElement, h]
  · simp only [readElement, hk, full, h, if_false, Bool.and_false, Bool.false_eq_true]

end

/-! ### One transition of the running engine -/

section
variable {k : Kind} {s : State} (next : s.NextEngine) (busy : s.status.busy = true) (mode : s.status.mode = some k)
include next busy mode

/-- The turn of a running engine is an element step (R104). -/
theorem step_element : step s = .next (elementStep k s.popped) := by
  rw [step_engine next]
  simp [engineTurn, engineStep, busy, mode]

theorem step_bus (read : readElement k s = none) : step s = .next (errorStop .bus s.popped) := by
  rw [step_element next busy mode, elementStep_bus (s := s.popped) read]

end

/-- Settles O18, from the element read by mode and pad. -/
theorem elementReadByModeOrBusStop : Obligations.ElementReadByModeOrBusStop := by
  refine ⟨fun s h => ?_, fun k s hk hrem hpad h => ?_, fun k s hk full h0 h1 => ?_, fun k s next busy mode h => ?_⟩
  · refine ⟨_, readElement_byte h, rfl, ?_⟩
    have := (s.memByte s.ptr).isLt
    simp only [BitVec.toNat_setWidth]
    omega
  · refine ⟨_, readElement_padded hk ⟨hrem, hpad⟩ h, rfl, ?_⟩
    simp only [element16_toNat]
    cases s.platform.wordOrder <;> simp [pairValue]
  · refine ⟨_, readElement_pair hk full h0 h1, rfl, ?_⟩
    simp only [element16_toNat]
    cases s.platform.wordOrder <;> rfl
  · rw [step_bus next busy mode (readElement_unreadable h)]
    rfl

/-- The reduction as a remainder of words. -/
theorem reduceWord_eq_umod (k : Kind) (c : Word) : reduceWord k c = c % BitVec.ofNat 32 (modulus k) := by
  apply BitVec.eq_of_toNat_eq
  rw [reduceWord_toNat, BitVec.toNat_umod]
  cases k <;> rfl

/-- A step that reads its element, as one update: both sums reduced at the end of a block or of the input, `RESULT` and
the record written at the end of the input (R104, R106 to R108). -/
theorem elementStep_of_read {k : Kind} {s : State} {e : Element} (read : readElement k s = some e) :
    let atEnd := s.rem = 1 ∨ s.blk = 1
    let c0 := if atEnd then reduceWord k (s.c0 + e.value) else s.c0 + e.value
    let c1 := if atEnd then reduceWord k (s.c1 + (s.c0 + e.value)) else s.c1 + (s.c0 + e.value)
    elementStep k s = { s with
      c0 := c0, c1 := c1, ptr := s.ptr + e.bytes, rem := s.rem - 1
      blk := if atEnd then BitVec.ofNat 32 (blockLength k) else s.blk - 1
      result := if s.rem = 1 then packResult k c0 c1 else s.result
      status := if s.rem = 1 then s.status.completed else s.status } := by
  by_cases hr : s.rem = 1
  · have hend : s.rem = 1 ∨ s.blk = 1 := .inl hr
    simp only [if_pos hr, if_pos hend]
    exact elementStep_last read hr
  · by_cases hb : s.blk = 1
    · have hend : s.rem = 1 ∨ s.blk = 1 := .inr hb
      simp only [if_neg hr, if_pos hend]
      exact elementStep_block read hr hb
    · have hin : ¬ (s.rem = 1 ∨ s.blk = 1) := not_or.2 ⟨hr, hb⟩
      simp only [if_neg hr, if_neg hin]
      exact elementStep_inner read hr hb

/-- Settles O17, from the step with and without its element. -/
theorem elementStepAccumulatesReducesCompletes : Obligations.ElementStepAccumulatesReducesCompletes := by
  refine ⟨fun k s e next busy mode read => ?_, fun k s next busy mode read => ?_, fun s next idle => ?_⟩
  · rw [step_element next busy mode, elementStep_of_read (s := s.popped) read]
    simp only [reduceWord_eq_umod]
    cases k <;> rfl
  · rw [step_bus next busy mode read]
    rfl
  · rw [step_idleTurn next idle]
    rfl

/-! ### Completion -/

/-- `C1` above `C0`, without overlap (R109). -/
theorem packResult_toNat {k : Kind} {c0 c1 : Word} (h0 : c0.toNat < modulus k) (h1 : c1.toNat < modulus k) :
    (packResult k c0 c1).toNat = c1.toNat * 2 ^ packShift k + c0.toNat := by
  have hfit : c0.toNat < 2 ^ packShift k ∧ c1.toNat * 2 ^ packShift k < 2 ^ 32 := by
    cases k <;> simp only [modulus, packShift] at * <;> omega
  rw [packResult, BitVec.toNat_or, BitVec.toNat_shiftLeft, Nat.shiftLeft_eq, Nat.mod_eq_of_lt hfit.2,
    ← Nat.shiftLeft_eq, Nat.shiftLeft_add_eq_or_of_lt hfit.1]

/-- The last element step leaves both sums reduced and `RESULT` packed (R104, R107, R108). -/
theorem elementStep_last_sums {k : Kind} {s : State} {e : Element} (read : readElement k s = some e)
    (hr : s.rem = 1) :
    (elementStep k s).c0.toNat = (s.c0 + e.value).toNat % modulus k ∧
    (elementStep k s).c1.toNat = (s.c1 + (s.c0 + e.value)).toNat % modulus k ∧
    (elementStep k s).result.toNat =
      (elementStep k s).c1.toNat * 2 ^ packShift k + (elementStep k s).c0.toNat := by
  have hlt : ∀ c, (reduceWord k c).toNat < modulus k := fun c =>
    reduceWord_toNat k c ▸ Nat.mod_lt _ (modulus_pos k)
  rw [elementStep_last read hr]
  exact ⟨reduceWord_toNat k _, reduceWord_toNat k _, packResult_toNat (hlt _) (hlt _)⟩

/-- Settles O19, from the sums of the last element step. -/
theorem completionPacksTheReducedSums : Obligations.CompletionPacksTheReducedSums := by
  intro k s next busy mode read hr
  obtain ⟨e, read⟩ := Option.ne_none_iff_exists'.1 read
  have read' : readElement k s.popped = some e := read
  obtain ⟨hc0, hc1, hres⟩ := elementStep_last_sums read' hr
  have hc0lt := hc0 ▸ Nat.mod_lt _ (modulus_pos k)
  have hc1lt := hc1 ▸ Nat.mod_lt _ (modulus_pos k)
  have hst : (elementStep k s.popped).status = s.status.completed := by rw [elementStep_last read' hr]; rfl
  refine ⟨_, step_element next busy mode, by rw [hst]; rfl, by rw [hst]; rfl, ?_⟩
  cases k with
  | f16 =>
    simp only [modulus, packShift] at hc0lt hc1lt hres
    exact ⟨hc0lt, hc1lt, hres, by omega⟩
  | f32b | f32w => exact ⟨hc0lt, hc1lt, hres⟩

end Sys2Proof.Machine

/-! SUPPORT. The sums of 40_engine_common.md R111 on plain numbers: how one more element changes them, and what they are
modulo `m`. -/

namespace Sys2Proof.Machine

/-- `C0` after `j` elements, last reduced after `q` of them (R111). -/
def blockedSum (m q : Nat) (e : Nat → Nat) (j : Nat) : Nat :=
  (∑ i ∈ Finset.range q, e i) % m + ∑ i ∈ Finset.Ico q j, e i

/-- `C1` after `j` elements, last reduced after `q` of them (R111). -/
def blockedWeightedSum (m q : Nat) (e : Nat → Nat) (j : Nat) : Nat :=
  (∑ i ∈ Finset.range q, (q - i) * e i) % m + (j - q) * ((∑ i ∈ Finset.range q, e i) % m) +
    ∑ i ∈ Finset.Ico q j, (j - i) * e i

/-- The last multiple of the block length up to `j`. -/
def lastBlockEnd (k : Kind) (j : Nat) : Nat := blockLength k * (j / blockLength k)

section
variable {m q j : Nat} {e : Nat → Nat}

theorem blockedSum_self : blockedSum m q e q = (∑ i ∈ Finset.range q, e i) % m := by simp [blockedSum]

theorem blockedWeightedSum_self :
    blockedWeightedSum m q e q = (∑ i ∈ Finset.range q, (q - i) * e i) % m := by simp [blockedWeightedSum]

theorem blockedSum_succ (h : q ≤ j) : blockedSum m q e (j + 1) = blockedSum m q e j + e j := by
  rw [blockedSum, blockedSum, Finset.sum_Ico_succ_top h, Nat.add_assoc]

/-- Each weight grows by one: the weighted sum grows by the plain one (R106). -/
theorem blockedWeightedSum_succ (h : q ≤ j) :
    blockedWeightedSum m q e (j + 1) = blockedWeightedSum m q e j + blockedSum m q e (j + 1) := by
  have hweights : ∑ i ∈ Finset.Ico q (j + 1), (j + 1 - i) * e i =
      ∑ i ∈ Finset.Ico q j, (j - i) * e i + ∑ i ∈ Finset.Ico q (j + 1), e i := by
    have hlast : ∑ i ∈ Finset.Ico q j, (j - i) * e i = ∑ i ∈ Finset.Ico q (j + 1), (j - i) * e i := by
      simp [Finset.sum_Ico_succ_top h]
    rw [hlast, ← Finset.sum_add_distrib]
    refine Finset.sum_congr rfl fun i hi => ?_
    obtain ⟨-, hi⟩ := Finset.mem_Ico.1 hi
    rw [Nat.sub_add_comm (Nat.le_of_lt_succ hi), Nat.succ_mul]
  rw [blockedWeightedSum, blockedWeightedSum, blockedSum, hweights, Nat.sub_add_comm h, Nat.succ_mul]
  omega

/-- Reducing between blocks does not change the sum modulo `m` (R110). -/
theorem blockedSum_mod (h : q ≤ j) : blockedSum m q e j % m = (∑ i ∈ Finset.range j, e i) % m := by
  rw [blockedSum, Nat.mod_add_mod, Finset.sum_range_add_sum_Ico e h]

/-- Reducing between blocks does not change the weighted sum modulo `m` (R110). -/
theorem blockedWeightedSum_mod (h : q ≤ j) :
    blockedWeightedSum m q e j % m = (∑ i ∈ Finset.range j, (j - i) * e i) % m := by
  have hrange : ∑ i ∈ Finset.range q, (j - i) * e i =
      ∑ i ∈ Finset.range q, (q - i) * e i + (j - q) * ∑ i ∈ Finset.range q, e i := by
    rw [Finset.mul_sum, ← Finset.sum_add_distrib]
    refine Finset.sum_congr rfl fun i hi => ?_
    have hi := Finset.mem_range.1 hi
    rw [← Nat.add_mul]
    congr 1
    omega
  rw [← Finset.sum_range_add_sum_Ico (fun i => (j - i) * e i) h, hrange, blockedWeightedSum]
  exact (((Nat.mod_modEq _ m).add ((Nat.mod_modEq _ m).mul_left _)).add_right _)

/-- Only the elements accumulated matter. -/
theorem blockedSum_congr {f : Nat → Nat} (hq : q ≤ j) (h : ∀ i < j, e i = f i) :
    blockedSum m q e j = blockedSum m q f j := by
  have hrange : ∑ i ∈ Finset.range q, e i = ∑ i ∈ Finset.range q, f i :=
    Finset.sum_congr rfl fun i hi => h i (Nat.lt_of_lt_of_le (Finset.mem_range.1 hi) hq)
  rw [blockedSum, blockedSum, hrange, Finset.sum_congr rfl fun i hi => h i (Finset.mem_Ico.1 hi).2]

theorem blockedWeightedSum_congr {f : Nat → Nat} (hq : q ≤ j) (h : ∀ i < j, e i = f i) :
    blockedWeightedSum m q e j = blockedWeightedSum m q f j := by
  have hbefore : ∀ i ∈ Finset.range q, e i = f i := fun i hi => h i (Nat.lt_of_lt_of_le (Finset.mem_range.1 hi) hq)
  have hsince : ∀ i ∈ Finset.Ico q j, e i = f i := fun i hi => h i (Finset.mem_Ico.1 hi).2
  have hweighted : ∑ i ∈ Finset.range q, (q - i) * e i = ∑ i ∈ Finset.range q, (q - i) * f i :=
    Finset.sum_congr rfl fun i hi => by rw [hbefore i hi]
  have hrest : ∑ i ∈ Finset.Ico q j, (j - i) * e i = ∑ i ∈ Finset.Ico q j, (j - i) * f i :=
    Finset.sum_congr rfl fun i hi => by rw [hsince i hi]
  rw [blockedWeightedSum, blockedWeightedSum, hweighted, hrest, Finset.sum_congr rfl hbefore]

end

section
variable {k : Kind} {j : Nat}

theorem lastBlockEnd_zero (k : Kind) : lastBlockEnd k 0 = 0 := by rw [lastBlockEnd, Nat.zero_div, Nat.mul_zero]

theorem lastBlockEnd_le (k : Kind) (j : Nat) : lastBlockEnd k j ≤ j := Nat.mul_div_le _ _

/-- At the end of a block. -/
theorem lastBlockEnd_succ_of_dvd (h : blockLength k ∣ j + 1) : lastBlockEnd k (j + 1) = j + 1 := Nat.mul_div_cancel' h

/-- Inside a block. -/
theorem lastBlockEnd_succ_of_not_dvd (h : ¬ blockLength k ∣ j + 1) : lastBlockEnd k (j + 1) = lastBlockEnd k j := by
  rw [lastBlockEnd, Nat.succ_div_of_not_dvd h, lastBlockEnd]

end

end Sys2Proof.Machine

/-! SUPPORT. A command from its write on (40_engine_common.md R110 to R113): what its state is after each element step that
does not end it, by induction on the steps, and the statements about whole commands settled from that. -/

namespace Sys2Proof.Machine

/-! ### The input of a command, element by element -/

/-- The bytes of one element (20_memory.md R56). -/
def elementBytes (k : Kind) : Nat := if wideElements k then 2 else 1

/-- Every byte of element `j` that lies in the buffer is readable (R105). -/
def ElementReadable (k : Kind) (s : State) (j : Nat) : Prop :=
  ∀ a : Word, s.src.toNat + elementBytes k * j ≤ a.toNat → a.toNat < s.src.toNat + elementBytes k * (j + 1) →
    a.toNat < s.src.toNat + byteCount k s → s.memReadable a = true

section
variable {k : Kind} {s : State} {j : Nat}

theorem elementBytes_pos (k : Kind) : 0 < elementBytes k := by cases k <;> decide

theorem elementBytes_f16 : elementBytes .f16 = 1 := rfl

theorem elementBytes_wide (hk : k ≠ .f16) : elementBytes k = 2 := if_pos (wideElements_iff.2 hk)

/-- Every element begins inside the buffer, a padded last one too (R121, R131, R133). -/
theorem element_begins_in_buffer (hj : j < elementCount k s) : elementBytes k * j < byteCount k s := by
  cases k <;>
    simp only [elementCount, byteCount, elementBytes, wideElements, lengthOperands, lengthF16, lengthF32B, lengthF32W,
      if_true, Bool.false_eq_true, if_false] at * <;>
    omega

/-- An element of 16 bits: its second byte counts as 0 where the buffer does not reach it (R55, R131). -/
theorem inputElement_wide (hk : k ≠ .f16) (hj : j < elementCount k s) :
    inputElement k s j = pairValue s.platform.wordOrder (s.mem.read (s.src.toNat + 2 * j)).toNat
      (if 2 * j + 1 < byteCount k s then (s.mem.read (s.src.toNat + 2 * j + 1)).toNat else 0) := by
  cases k with
  | f16 => exact absurd rfl hk
  | f32b => rfl
  | f32w =>
    have hj : j < s.len.toNat := hj
    have hin : 2 * j + 1 < byteCount .f32w s := by
      show 2 * j + 1 < 2 * s.len.toNat
      omega
    rw [if_pos hin]
    rfl

theorem ReadableBytes.elementReadable {n : Nat} (h : ReadableBytes s n)
    (hn : elementBytes k * (j + 1) ≤ n ∨ byteCount k s ≤ n) : ElementReadable k s j := by
  intro a hlo hhi hbuf
  exact h a (by omega) (by omega)

end

/-! ### No accumulator add wraps -/

/-- From R44 (e) at the greatest number of elements since a reduction (R122, R134). -/
theorem State.Running.accumulate_no_wrap {k : Kind} {s : State} {e : Element} (h : s.Running k)
    (read : readElement k s = some e) :
    s.c0.toNat + e.value.toNat < 2 ^ 32 ∧ s.c1.toNat + (s.c0.toNat + e.value.toNat) < 2 ^ 32 := by
  have he := readElement_value_le read
  have h0 := h.c0_bound
  have h1 := h.c1_bound
  have hj : sinceReduction k s ≤ blockLength k - 1 := Nat.sub_le_sub_left h.blk_range.1 _
  have htri : sinceReduction k s * (sinceReduction k s + 1) / 2 ≤ (blockLength k - 1) * (blockLength k - 1 + 1) / 2 :=
    Nat.div_le_div_right (Nat.mul_le_mul hj (Nat.succ_le_succ hj))
  generalize sinceReduction k s * (sinceReduction k s + 1) / 2 = tri at h1 htri
  cases k <;> simp only [modulus, blockLength] at * <;> omega

/-! ### The state between two element steps -/

/-- `t` is the state of the command of kind `k` written in `s` after `j` element steps, none of them its last (R111). -/
structure AfterElements (k : Kind) (s : State) (j : Nat) (t : State) : Prop where
  running : t.Running k
  status : t.status = ⟨true, false, false, false, .none, some k⟩
  host : SameHostState s t
  result : t.result = s.result
  pending : t.pending = []
  pad : t.pad = (lengthOperands k s.len).pad
  ptr : t.ptr.toNat = s.src.toNat + elementBytes k * j
  rem : t.rem.toNat = elementCount k s - j
  blk : t.blk.toNat = blockLength k - j % blockLength k
  c0 : t.c0.toNat = blockedSum (modulus k) (lastBlockEnd k j) (inputElement k s) j
  c1 : t.c1.toNat = blockedWeightedSum (modulus k) (lastBlockEnd k j) (inputElement k s) j

section
variable {k : Kind} {s t : State} {j : Nat}

theorem AfterElements.memByte (h : AfterElements k s j t) (a : Word) : t.memByte a = s.mem.read a.toNat := by
  rw [State.memByte, h.host.mem]

theorem AfterElements.memReadable (h : AfterElements k s j t) (a : Word) : t.memReadable a = s.memReadable a := by
  rw [State.memReadable, h.host.platform]; rfl

/-- The element step takes the pad for the second byte exactly where the buffer does not reach it (R105, R131). -/
theorem AfterElements.padded_iff (h : AfterElements k s j t) (hk : k ≠ .f16) :
    (t.rem = 1 ∧ t.pad = true) ↔ byteCount k s = 2 * j + 1 := by
  have hrem := h.rem
  have hone : t.rem = 1 ↔ t.rem.toNat = 1 := BitVec.toNat_inj.symm
  rw [hone, h.pad]
  cases k with
  | f16 => exact absurd rfl hk
  | f32b =>
    show t.rem.toNat = 1 ∧ (s.len.toNat % 2 == 1) = true ↔ s.len.toNat = 2 * j + 1
    have hrem : t.rem.toNat = (s.len.toNat + 1) / 2 - j := hrem
    rw [beq_iff_eq]
    omega
  | f32w =>
    have hne : 2 * s.len.toNat ≠ 2 * j + 1 := by omega
    exact ⟨fun hp => (nomatch hp.2), fun hbuf => absurd hbuf hne⟩

/-- The address of the second byte of an element, where the buffer reaches it, does not wrap (R57). -/
theorem AfterElements.ptr_succ (h : AfterElements k s j t) (passes : StartPasses k s) (hk : k ≠ .f16)
    (hj : 2 * j + 1 < byteCount k s) : (t.ptr + 1).toNat = s.src.toNat + 2 * j + 1 := by
  have hptr := h.ptr
  have hfit := passes.2
  rw [elementBytes_wide hk] at hptr
  bv_omega

/-- A readable element is read as the number of R55. -/
theorem AfterElements.read (h : AfterElements k s j t) (passes : StartPasses k s) (hj : j < elementCount k s)
    (readable : ElementReadable k s j) :
    ∃ e, readElement k t = some e ∧ e.value.toNat = inputElement k s j := by
  have hbuf := element_begins_in_buffer hj
  have hptr := h.ptr
  have h0 : t.memReadable t.ptr = true := by
    rw [h.memReadable]
    have hsucc : elementBytes k * j < elementBytes k * (j + 1) :=
      Nat.mul_lt_mul_of_pos_left (Nat.lt_succ_self j) (elementBytes_pos k)
    exact readable _ hptr.ge (by omega) (by omega)
  by_cases hk : k = .f16
  · subst hk
    refine ⟨_, readElement_byte h0, ?_⟩
    have hptr : t.ptr.toNat = s.src.toNat + j := by rw [hptr, elementBytes_f16, Nat.one_mul]
    rw [BitVec.toNat_setWidth, h.memByte, hptr]
    exact Nat.mod_eq_of_lt (Nat.lt_trans (BitVec.isLt _) (by decide))
  · rw [inputElement_wide hk hj, ← h.host.platform]
    rw [elementBytes_wide hk] at hbuf hptr
    by_cases hp : byteCount k s = 2 * j + 1
    · refine ⟨_, readElement_padded hk ((h.padded_iff hk).2 hp) h0, ?_⟩
      rw [element16_toNat, h.memByte, hptr, if_neg (by omega)]
      rfl
    · have hin : 2 * j + 1 < byteCount k s := by omega
      have hptr1 := h.ptr_succ passes hk hin
      have h1 : t.memReadable (t.ptr + 1) = true := by
        rw [h.memReadable]
        exact readable _ (by rw [hptr1, elementBytes_wide hk]; omega) (by rw [hptr1, elementBytes_wide hk]; omega)
          (by omega)
      refine ⟨_, readElement_pair hk (mt (h.padded_iff hk).1 hp) h0 h1, ?_⟩
      rw [element16_toNat, h.memByte, h.memByte, hptr, hptr1, if_pos hin]

/-- An element with an unreadable byte is not read (R105). -/
theorem AfterElements.unreadable (h : AfterElements k s j t) (passes : StartPasses k s)
    (unreadable : ¬ ElementReadable k s j) : readElement k t = none := by
  unfold ElementReadable at unreadable
  push Not at unreadable
  obtain ⟨a, hlo, hhi, hbuf, ha⟩ := unreadable
  have ha : t.memReadable a = false := by rw [h.memReadable]; simpa using ha
  have hptr := h.ptr
  by_cases hfirst : a.toNat = t.ptr.toNat
  · exact readElement_unreadable (.inl (BitVec.eq_of_toNat_eq hfirst ▸ ha))
  · have hk : k ≠ .f16 := by
      rintro rfl
      rw [elementBytes_f16] at hlo hhi hptr
      omega
    rw [elementBytes_wide hk] at hlo hhi hptr
    have hsecond : a = t.ptr + 1 :=
      BitVec.eq_of_toNat_eq (by rw [h.ptr_succ passes hk (by omega)]; omega)
    exact readElement_unreadable (.inr ⟨hk, mt (h.padded_iff hk).1 (by omega), hsecond ▸ ha⟩)

/-- The sums an element step forms before any reduction (R106, R111). -/
theorem AfterElements.sums (h : AfterElements k s j t) {e : Element} (read : readElement k t = some e)
    (value : e.value.toNat = inputElement k s j) :
    (t.c0 + e.value).toNat = blockedSum (modulus k) (lastBlockEnd k j) (inputElement k s) (j + 1) ∧
    (t.c1 + (t.c0 + e.value)).toNat =
      blockedWeightedSum (modulus k) (lastBlockEnd k j) (inputElement k s) (j + 1) := by
  obtain ⟨hfit0, hfit1⟩ := h.running.accumulate_no_wrap read
  have hc0 : (t.c0 + e.value).toNat = t.c0.toNat + e.value.toNat := BitVec.toNat_add_of_lt hfit0
  rw [← hc0] at hfit1
  rw [BitVec.toNat_add_of_lt hfit1, blockedWeightedSum_succ (lastBlockEnd_le k j), blockedSum_succ (lastBlockEnd_le k j),
    hc0, h.c0, h.c1, value]
  exact ⟨rfl, rfl⟩

theorem SameHostState.elementStep (h : SameHostState s t) (k : Kind) : SameHostState s (elementStep k t) := by
  obtain ⟨hsrc, hlen, hinten, hmem, hplat, -⟩ := elementStep_frame k t
  exact ⟨hsrc.trans h.src, hlen.trans h.len, hinten.trans h.inten, hmem.trans h.mem, hplat.trans h.platform⟩

theorem AfterElements.rem_ne_one (h : AfterElements k s j t) (hj : j + 1 < elementCount k s) : t.rem ≠ 1 := by
  intro hone
  have hrem := h.rem
  rw [hone] at hrem
  have : 1 = elementCount k s - j := hrem
  omega

/-- The step reduces exactly at the end of a block (R111). -/
theorem AfterElements.blk_eq_one_iff (h : AfterElements k s j t) : t.blk = 1 ↔ blockLength k ∣ j + 1 := by
  have hone : t.blk = 1 ↔ t.blk.toNat = 1 := BitVec.toNat_inj.symm
  rw [hone, h.blk]
  cases k <;> simp only [blockLength] <;> omega

/-- The cursor moves to the next element, inside the buffer (R104, R57). -/
theorem AfterElements.taken_cursor (h : AfterElements k s j t) (passes : StartPasses k s)
    (hj : j + 1 < elementCount k s) {e : Element} (read : readElement k t = some e) :
    (t.taken e).ptr.toNat = s.src.toNat + elementBytes k * (j + 1) ∧
    (t.taken e).rem.toNat = elementCount k s - (j + 1) := by
  have hrem := h.rem
  have hbuf := element_begins_in_buffer hj
  have hfit := passes.2
  have hbytes : e.bytes.toNat = elementBytes k := readElement_bytes read (h.rem_ne_one hj)
  have hsucc : elementBytes k * (j + 1) = elementBytes k * j + elementBytes k := Nat.mul_succ _ _
  constructor
  · show (t.ptr + e.bytes).toNat = _
    rw [BitVec.toNat_add, h.ptr, hbytes]
    omega
  · show (t.rem - 1).toNat = _
    bv_omega

/-- One element step that does not end the command (R104, R111). -/
theorem AfterElements.succ (h : AfterElements k s j t) (passes : StartPasses k s) (hj : j + 1 < elementCount k s)
    (readable : ElementReadable k s j) : AfterElements k s (j + 1) (elementStep k t) := by
  obtain ⟨e, read, value⟩ := h.read passes (Nat.lt_of_succ_lt hj) readable
  obtain ⟨hc0, hc1⟩ := h.sums read value
  obtain ⟨hptr, hrem⟩ := h.taken_cursor passes hj read
  have hr := h.rem_ne_one hj
  have host := h.host.elementStep k
  by_cases hb : t.blk = 1
  · have hend := h.blk_eq_one_iff.1 hb
    have hq : lastBlockEnd k j ≤ j + 1 := Nat.le_succ_of_le (lastBlockEnd_le k j)
    rw [elementStep_block read hr hb] at host ⊢
    refine ⟨h.running.block read hr, h.status, host, h.result, h.pending, h.pad, hptr, hrem, ?_, ?_, ?_⟩
    · rw [Nat.mod_eq_zero_of_dvd hend]
      cases k <;> rfl
    · rw [lastBlockEnd_succ_of_dvd hend, blockedSum_self, ← blockedSum_mod hq, ← hc0]
      exact reduceWord_toNat k _
    · rw [lastBlockEnd_succ_of_dvd hend, blockedWeightedSum_self, ← blockedWeightedSum_mod hq, ← hc1]
      exact reduceWord_toNat k _
  · have hinner := mt h.blk_eq_one_iff.2 hb
    have hq := lastBlockEnd_succ_of_not_dvd hinner
    have hblk := h.blk
    rw [elementStep_inner read hr hb] at host ⊢
    refine ⟨h.running.inner read hr hb, h.status, host, h.result, h.pending, h.pad, hptr, hrem, ?_, hq ▸ hc0,
      hq ▸ hc1⟩
    show (t.blk - 1).toNat = _
    cases k <;> simp only [blockLength] at * <;> bv_omega

end

/-! ### Runs -/

/-- The first step of a run. -/
theorem run_of_step {n : Nat} {s s' : State} (h : step s = .next s') :
    Host.Core.run Sys2Proof.core (n + 1) s = Host.Core.run Sys2Proof.core n s' := by
  have h' : Sys2Proof.core.step s = .next s' := h
  simp only [Host.Core.run, h']

/-- The last step of a run. -/
theorem run_succ {n : Nat} {s t t' : State} (h : Host.Core.run Sys2Proof.core n s = .next t)
    (ht : step t = .next t') : Host.Core.run Sys2Proof.core (n + 1) s = .next t' := by
  induction n generalizing s with
  | zero => cases h; exact run_of_step ht
  | succ n ih =>
    simp only [Host.Core.run] at h
    split at h
    · next s' hs' => rw [run_of_step hs']; exact ih h
    · cases h
    · cases h

/-- Nothing pending and the engine running: the step is an element step. -/
theorem step_afterElements {k : Kind} {s t : State} {j : Nat} (h : AfterElements k s j t) :
    step t = .next (elementStep k t) := by
  have hpop : t.popped = t := by rw [State.popped, h.pending]; cases t; cases h.pending; rfl
  rw [step_element (.inl (by rw [h.pending]; rfl)) (by rw [h.status]) h.running.mode, hpop]

section
variable {k : Kind} {s : State} (commanded : Commanded k s)
include commanded

/-- The first step writes the command, which starts (R102). -/
theorem step_commanded : step s = .next (start k (lengthOperands k s.popped.len) (statusClear s.popped)) := by
  obtain ⟨idle, pending⟩ := commanded
  rw [step_command (i := k.instr) (congrArg List.head? pending), exec_kind_idle (s := s.popped) k idle]

/-- A command over some element is running after its write, with no element taken (R102). -/
theorem start_afterElements (passes : StartPasses k s) (count : elementCount k s ≠ 0) :
    AfterElements k s 0 (start k (lengthOperands k s.popped.len) (statusClear s.popped)) := by
  rw [start_runs (s := s.popped) passes count]
  refine ⟨start_running passes count, rfl, ⟨rfl, rfl, rfl, rfl, rfl⟩, rfl, congrArg List.tail commanded.2, rfl, rfl,
    loadOperands_rem_toNat k s (s.modeWritten k), ?_, ?_, ?_⟩
  · cases k <;> rfl
  · rw [lastBlockEnd_zero, blockedSum_self, Finset.sum_range_zero, Nat.zero_mod]
    rfl
  · rw [lastBlockEnd_zero, blockedWeightedSum_self, Finset.sum_range_zero, Nat.zero_mod]
    rfl

/-- The state after each element step that does not end the command, by induction on the steps (R111). -/
theorem run_afterElements (passes : StartPasses k s) {j : Nat} (hj : j < elementCount k s)
    (readable : ∀ i < j, ElementReadable k s i) :
    ∃ t : State, Host.Core.run Sys2Proof.core (j + 1) s = .next t ∧ AfterElements k s j t := by
  induction j with
  | zero =>
    exact ⟨_, run_of_step (step_commanded commanded), start_afterElements commanded passes (Nat.ne_of_gt hj)⟩
  | succ j ih =>
    obtain ⟨t, hrun, ht⟩ := ih (Nat.lt_of_succ_lt hj) fun i hi => readable i (Nat.lt_succ_of_lt hi)
    exact ⟨_, run_succ hrun (step_afterElements ht), ht.succ passes hj (readable j (Nat.lt_succ_self j))⟩

end

/-- Settles O43, from the state after each element step. -/
theorem intermediateSumsAreReducedOnlyAtBlocks : Obligations.IntermediateSumsAreReducedOnlyAtBlocks := by
  intro k s j commanded passes readable hj
  obtain ⟨t, hrun, ht⟩ := run_afterElements commanded passes hj fun i _ => readable.elementReadable (.inr le_rfl)
  exact ⟨t, hrun, by rw [ht.status], ht.rem, ht.blk, ht.result, ht.c0, ht.c1⟩

/-! ### Completion -/

/-- The last element step leaves the unblocked sums (R104, R108, R110). -/
theorem AfterElements.last {k : Kind} {s t : State} {j : Nat} (h : AfterElements k s j t) (passes : StartPasses k s)
    (hj : j + 1 = elementCount k s) (readable : ElementReadable k s j) :
    (elementStep k t).status = ⟨false, true, false, false, .none, some k⟩ ∧
    (elementStep k t).c0.toNat = (∑ i ∈ Finset.range (j + 1), inputElement k s i) % modulus k ∧
    (elementStep k t).c1.toNat = (∑ i ∈ Finset.range (j + 1), (j + 1 - i) * inputElement k s i) % modulus k ∧
    (elementStep k t).result.toNat =
      (elementStep k t).c1.toNat * 2 ^ packShift k + (elementStep k t).c0.toNat := by
  obtain ⟨e, read, value⟩ := h.read passes (by omega) readable
  have hrem := h.rem
  have hr : t.rem = 1 := BitVec.eq_of_toNat_eq (by rw [hrem, ← hj]; exact Nat.add_sub_cancel_left j 1)
  obtain ⟨hc0, hc1⟩ := h.sums read value
  obtain ⟨hlast0, hlast1, hres⟩ := elementStep_last_sums read hr
  have hq : lastBlockEnd k j ≤ j + 1 := Nat.le_succ_of_le (lastBlockEnd_le k j)
  refine ⟨?_, by rw [hlast0, hc0, blockedSum_mod hq], by rw [hlast1, hc1, blockedWeightedSum_mod hq], hres⟩
  rw [elementStep_last read hr]
  show t.status.completed = _
  rw [h.status]
  rfl

/-- Settles O44: a zero-length start, or the last step after the others. -/
theorem completedCommandGivesTheFletcherSums : Obligations.CompletedCommandGivesTheFletcherSums := by
  intro k s commanded passes readable
  have readable : ∀ i, ElementReadable k s i := fun i => readable.elementReadable (.inr le_rfl)
  rcases hn : elementCount k s with _ | j
  · refine ⟨_, run_of_step (step_commanded commanded), ?_⟩
    rw [start_zeroLength (s := s.popped) passes hn]
    refine ⟨rfl, rfl, rfl, ?_, rfl, rfl, rfl⟩
    show 0 = 0 * 2 ^ packShift k + 0
    rw [Nat.zero_mul]
  · obtain ⟨t, hrun, ht⟩ := run_afterElements (j := j) commanded passes (by omega) fun i _ => readable i
    obtain ⟨hst, hc0, hc1, hres⟩ := ht.last passes hn.symm (readable j)
    obtain ⟨hsrc, hlen, -, hmem, -⟩ := ht.host.elementStep k
    exact ⟨_, run_succ hrun (step_afterElements ht), hst, hc0, hc1, hres, hsrc, hlen, hmem⟩

/-! ### A buffer that is not readable throughout -/

/-- Settles O45: the elements before are taken, and the next one is not read. -/
theorem busErrorStopsAfterTheReadableElements : Obligations.BusErrorStopsAfterTheReadableElements := by
  intro k s j commanded passes hj w readable ⟨a, hlo, hhi, hbuf, ha⟩
  have hw : w = elementBytes k := by cases k <;> rfl
  rw [hw] at readable hlo hhi
  have before : ∀ i < j, ElementReadable k s i := fun i hi =>
    readable.elementReadable (.inl (Nat.mul_le_mul_left _ hi))
  have unreadable : ¬ ElementReadable k s j := fun h => by simp [h a hlo hhi hbuf] at ha
  obtain ⟨t, hrun, ht⟩ := run_afterElements commanded passes hj before
  refine ⟨t, hrun, by rw [ht.status], hw ▸ ht.ptr, ht.result, ?_⟩
  have hstop : elementStep k t = t.withStatus (Status.stopped ⟨true, false, false, false, .none, some k⟩ .bus) := by
    rw [elementStep_bus (ht.unreadable passes unreadable), errorStop, ht.status]
  rw [run_succ hrun (step_afterElements ht), hstop]
  rfl

/-! ### What the sums depend on -/

/-- Two commands over the same operands and the same bytes have the same elements (R55, R56). -/
theorem inputElement_congr {k : Kind} {s u : State} {i : Nat} (passes : StartPasses k s) (hsrc : s.src = u.src)
    (hlen : s.len = u.len) (horder : s.platform.wordOrder = u.platform.wordOrder)
    (bytes : ∀ a : Word, s.src.toNat ≤ a.toNat → a.toNat < s.src.toNat + byteCount k s → s.memByte a = u.memByte a)
    (hi : i < elementCount k s) : inputElement k s i = inputElement k u i := by
  have hfit := passes.2
  have hcount : elementCount k s = elementCount k u := by rw [elementCount, elementCount, hlen]
  have hbytes : byteCount k s = byteCount k u := by rw [byteCount, byteCount, hlen]
  have hbuf := element_begins_in_buffer hi
  have read : ∀ x < byteCount k s, s.mem.read (s.src.toNat + x) = u.mem.read (u.src.toNat + x) := by
    intro x hx
    have haddr : (BitVec.ofNat 32 (s.src.toNat + x)).toNat = s.src.toNat + x :=
      Nat.mod_eq_of_lt (by omega)
    have hbyte := bytes (BitVec.ofNat 32 (s.src.toNat + x)) (by omega) (by omega)
    rw [State.memByte, State.memByte, haddr] at hbyte
    rwa [← hsrc]
  by_cases hk : k = .f16
  · subst hk
    rw [elementBytes_f16, Nat.one_mul] at hbuf
    exact congrArg BitVec.toNat (read i hbuf)
  · rw [elementBytes_wide hk] at hbuf
    rw [inputElement_wide hk hi, inputElement_wide hk (hcount ▸ hi), read _ hbuf, horder, ← hbytes]
    split
    · next hin => rw [Nat.add_assoc, read _ hin, Nat.add_assoc]
    · rfl

/-- Settles O48, from the sums of both machines. -/
theorem inputBytesDetermineTheChecksum : Obligations.InputBytesDetermineTheChecksum := by
  intro k s u j commanded commanded' passes hsrc hlen horder readable readable' bytes hj
  have hcount : elementCount k u = elementCount k s := by rw [elementCount, elementCount, hlen]
  have passes' : StartPasses k u := by
    unfold StartPasses byteCount at passes ⊢
    rwa [← hsrc, ← hlen]
  have elements : ∀ i < elementCount k s, inputElement k s i = inputElement k u i := fun i hi =>
    inputElement_congr passes hsrc hlen horder bytes hi
  rcases Nat.lt_or_eq_of_le hj with hj | rfl
  · have hq := lastBlockEnd_le k j
    have agree : ∀ i < j, inputElement k s i = inputElement k u i := fun i hi => elements i (Nat.lt_trans hi hj)
    obtain ⟨a, hrun, ha⟩ := run_afterElements commanded passes hj fun i _ => readable.elementReadable (.inr le_rfl)
    obtain ⟨b, hrun', hb⟩ := run_afterElements commanded' passes' (hcount ▸ hj) fun i _ =>
      readable'.elementReadable (.inr le_rfl)
    exact ⟨a, b, hrun, hrun', BitVec.eq_of_toNat_eq (by rw [ha.c0, hb.c0, blockedSum_congr hq agree]),
      BitVec.eq_of_toNat_eq (by rw [ha.c1, hb.c1, blockedWeightedSum_congr hq agree]), fun h => absurd h hj.ne⟩
  · obtain ⟨a, hrun, -, ha0, ha1, hares, -⟩ := completedCommandGivesTheFletcherSums k s commanded passes readable
    obtain ⟨b, hrun', -, hb0, hb1, hbres, -⟩ := completedCommandGivesTheFletcherSums k u commanded' passes' readable'
    rw [hcount] at hrun' hb0 hb1
    have hc0 : a.c0.toNat = b.c0.toNat := by
      rw [ha0, hb0, ← blockedSum_self, ← blockedSum_self, blockedSum_congr le_rfl elements]
    have hc1 : a.c1.toNat = b.c1.toNat := by
      rw [ha1, hb1, ← blockedWeightedSum_self, ← blockedWeightedSum_self, blockedWeightedSum_congr le_rfl elements]
    exact ⟨a, b, hrun, hrun', BitVec.eq_of_toNat_eq hc0, BitVec.eq_of_toNat_eq hc1, fun _ =>
      BitVec.eq_of_toNat_eq (by rw [hares, hbres, hc0, hc1])⟩

end Sys2Proof.Machine

/-! SUPPORT. The statements about `F16` settled (41_fletcher16.md R121, R122): its start over `LEN` bytes, and the bound its
block length is chosen for, which R134 of 42_fletcher32.md gives the 16-bit commands. -/

namespace Sys2Proof.Machine

/-! ### The `LENGTH` stop of a start -/

/-- A start whose buffer begins aligned but runs past the address space stops with `LENGTH` (R102, R163). -/
theorem start_lengthStop {k : Kind} {s : State} (aligned : wideElements k = true → s.src.toNat % 2 = 0)
    (past : 2 ^ 32 < s.src.toNat + byteCount k s) :
    start k (lengthOperands k s.len) (statusClear s) =
      errorStop .length (s.withStatus (s.status.cleared.withMode (some k))) := by
  have hc : startError k (lengthOperands k s.len) (statusClear s).src = some .length := by
    rcases startError_cases k (lengthOperands k s.len) s.src with ⟨-, hw, hodd⟩ | ⟨h, -⟩ | ⟨-, -, hfit⟩
    · have heven := aligned hw
      omega
    · exact h
    · exact absurd past (Nat.not_lt.2 hfit)
  simp only [start, hc]
  rfl

/-! ### The statements -/

/-- Settles O8: a byte buffer has no alignment check, so only the `LENGTH` check separates the two ends of the start. -/
theorem f16StartsOverLenBytes : Obligations.F16StartsOverLenBytes := by
  refine ⟨fun _ => rfl, fun s idle => ?_⟩
  have aligned : wideElements .f16 = true → s.src.toNat % 2 = 0 := fun wide => absurd rfl (wideElements_iff.1 wide)
  have hexec : exec .f16 s = .next (start .f16 (lengthOperands .f16 s.len) (statusClear s)) := exec_kind_idle .f16 idle
  rw [hexec]
  refine ⟨fun hlen fits => ?_, fun past => ?_⟩
  · have hrem : BitVec.ofNat 32 (lengthOperands .f16 s.len).nelem = s.len :=
      (BitVec.ofNat_toNat 32 s.len).trans (BitVec.setWidth_eq s.len)
    rw [start_runs ⟨aligned, fits⟩ (mt elementCount_eq_zero_iff.1 hlen), loadOperands, hrem]
    rfl
  · rw [start_lengthStop aligned past]
    rfl

/-- Settles O41, from the bounds R44 (e) that a running command of the kind in `MODE` meets. -/
theorem noAccumulatorAddEverWraps : Obligations.NoAccumulatorAddEverWraps :=
  fun _ _ _ inv busy mode read => (inv.running_mode busy mode).accumulate_no_wrap read

end Sys2Proof.Machine

/-! SUPPORT. The statements about `F32B` and `F32W` settled (42_fletcher32.md R131, R133, R135, R136): how each starts, and
two machines run side by side, the one a form of the other. -/

namespace Sys2Proof.Machine

/-! ### How each command starts -/

section
variable {k : Kind} {s : State} (idle : s.status.busy = false)
include idle

/-- A compute command over a non-empty buffer that passes its checks is running after its write (R102). -/
theorem exec_kind_runs (passes : StartPasses k s) (nonempty : s.len ≠ 0) :
    exec k.instr s = .next { s with
      status := ⟨true, false, false, false, .none, some k⟩
      c0 := 0, c1 := 0, ptr := s.src, rem := BitVec.ofNat 32 (elementCount k s)
      blk := BitVec.ofNat 32 (blockLength k), pad := (lengthOperands k s.len).pad } := by
  rw [exec_kind_idle k idle, start_runs passes (mt elementCount_eq_zero_iff.1 nonempty)]
  rfl

/-- A compute command whose buffer begins aligned but runs past the address space stops with `LENGTH` (R102, R163). -/
theorem exec_kind_lengthStop (aligned : wideElements k = true → s.src.toNat % 2 = 0)
    (past : 2 ^ 32 < s.src.toNat + byteCount k s) :
    exec k.instr s = .next { s with status := ⟨false, false, true, false, .length, some k⟩ } := by
  rw [exec_kind_idle k idle, start_lengthStop aligned past]
  rfl

end

/-- Settles O9: the start of any kind, with the operands of R131. -/
theorem f32BStartsOverRoundedUpBytes : Obligations.F32BStartsOverRoundedUpBytes :=
  ⟨fun _ => rfl, fun _ idle even =>
    ⟨fun nonempty fits => exec_kind_runs (k := .f32b) idle ⟨fun _ => even, fits⟩ nonempty,
      fun past => exec_kind_lengthStop (k := .f32b) idle (fun _ => even) past⟩⟩

/-- Settles O10: the start of any kind, with the operands of R133. -/
theorem f32WStartsOverLenWords : Obligations.F32WStartsOverLenWords := by
  refine ⟨fun _ => rfl, fun s idle even => ⟨fun nonempty fits => ?_, fun past =>
    exec_kind_lengthStop (k := .f32w) idle (fun _ => even) past⟩⟩
  have hrem : BitVec.ofNat 32 (elementCount .f32w s) = s.len :=
    (BitVec.ofNat_toNat 32 s.len).trans (BitVec.setWidth_eq s.len)
  have hexec := exec_kind_runs (k := .f32w) idle ⟨fun _ => even, fits⟩ nonempty
  rw [hrem] at hexec
  exact hexec

/-! ### Two machines side by side -/

/-- An induction for pairs of runs: a relation that a step on both sides keeps holds after any number of steps. -/
theorem run_lockstep {R : State → State → Prop}
    (hstep : ∀ a b, R a b → ∃ a' b', step a = .next a' ∧ step b = .next b' ∧ R a' b') (n : Nat) {a b : State}
    (h : R a b) :
    ∃ a' b', Host.Core.run Sys2Proof.core n a = .next a' ∧ Host.Core.run Sys2Proof.core n b = .next b' ∧ R a' b' := by
  induction n generalizing a b with
  | zero => exact ⟨a, b, rfl, rfl, h⟩
  | succ n ih =>
    obtain ⟨a', b', ha, hb, h'⟩ := hstep a b h
    rw [run_of_step ha, run_of_step hb]
    exact ih h'

section
variable {s : State} (alone : s.pending = [])
include alone

theorem popped_of_nothing_pending : s.popped = s := by cases s; cases alone; rfl

/-- With nothing pending, a running engine takes its element step (R104, R190). -/
theorem step_alone_running {k : Kind} (busy : s.status.busy = true) (mode : s.status.mode = some k) :
    step s = .next (elementStep k s) := by
  rw [step_element (.inl (congrArg List.head? alone)) busy mode, popped_of_nothing_pending alone]

/-- With nothing pending, an idle engine stays as it is (R172). -/
theorem step_alone_idle (idle : s.status.busy = false) : step s = .next s := by
  rw [step_idleTurn (.inl (congrArg List.head? alone)) idle, popped_of_nothing_pending alone]

end

/-! ### The three ends of a start, from the answer of its checks -/

section
variable {k : Kind} {o : LengthOperands} {s : State}

theorem start_eq_errorStop {code : ECode} (check : startError k o s.src = some code) :
    start k o s = errorStop code (s.withStatus (s.status.withMode (some k))) := by
  simp only [start, check]

theorem start_eq_zeroLength (check : startError k o s.src = none) (count : o.nelem = 0) :
    start k o s = zeroLengthComplete (loadOperands k o (s.withStatus (s.status.withMode (some k)))) := by
  simp only [start, check, if_pos count]

theorem start_eq_running (check : startError k o s.src = none) (count : o.nelem ≠ 0) :
    start k o s = (loadOperands k o (s.withStatus (s.status.withMode (some k)))).withStatus
      (s.status.withMode (some k)).running := by
  simp only [start, check, if_neg count]
  rfl

end

/-! ### The `F32W` form of an `F32B` machine -/

/-- The machine that differs in `LEN` and in `MODE`, which names `F32W`. -/
def State.wordForm (n : Word) (s : State) : State := (s.withLen n).withStatus (s.status.withMode (some .f32w))

/-- Two `F32B` bytes are one `F32W` word: the operands of `LEN` = 2n and of `LEN` = n are the same (R131, R133). -/
theorem lengthOperands_double {n : Nat} (h : 2 * n < 2 ^ 32) :
    lengthOperands .f32b (BitVec.ofNat 32 (2 * n)) = lengthOperands .f32w (BitVec.ofNat 32 n) := by
  have hbytes : (BitVec.ofNat 32 (2 * n)).toNat = 2 * n := Nat.mod_eq_of_lt h
  have hwords : (BitVec.ofNat 32 n).toNat = n := Nat.mod_eq_of_lt (by omega)
  have hcount : (2 * n + 1) / 2 = n := by omega
  have hpad : (2 * n % 2 == 1) = false := by rw [Nat.mul_mod_right]; rfl
  simp only [lengthOperands, lengthF32B, lengthF32W, hbytes, hwords, hcount, hpad]

/-- The start of `F32W` is that of `F32B` over the same operands, whether its checks pass or not (R102, R132). -/
theorem start_wordForm (n : Word) (o : LengthOperands) (s : State) :
    start .f32w o (s.withLen n) = (start .f32b o s).wordForm n := by
  have checks : startError .f32w o (s.withLen n).src = startError .f32b o s.src := rfl
  cases hc : startError .f32b o s.src with
  | some code =>
    rw [start_eq_errorStop hc, start_eq_errorStop (checks.trans hc)]
    rfl
  | none =>
    by_cases hn : o.nelem = 0
    · rw [start_eq_zeroLength hc hn, start_eq_zeroLength (checks.trans hc) hn]
      rfl
    · rw [start_eq_running hc hn, start_eq_running (checks.trans hc) hn]
      rfl

/-- Both forms read the same elements (R105). -/
theorem readElement_wordForm (n : Word) (s : State) : readElement .f32w (s.wordForm n) = readElement .f32b s := by
  simp only [readElement, reduceCtorEq, if_false]
  rfl

/-- An element step of `F32W` is that of `F32B`: the constants of R99 are the same. -/
theorem elementStep_wordForm (n : Word) (s : State) :
    elementStep .f32w (s.wordForm n) = (elementStep .f32b s).wordForm n := by
  rcases elementStep_cases .f32b s with ⟨read, h⟩ | ⟨e, read, ⟨hr, h⟩ | ⟨hr, hb, h⟩ | ⟨hr, hb, h⟩⟩ <;> rw [h] <;>
    rw [← readElement_wordForm n] at read
  · rw [elementStep_bus read]
    rfl
  · rw [elementStep_last read hr]
    rfl
  · rw [elementStep_block read hr hb]
    rfl
  · rw [elementStep_inner read hr hb]
    rfl

/-- `a` is an `F32B` machine with nothing pending and `b` its `F32W` form. -/
structure WordFormPair (n : Word) (a b : State) : Prop where
  alone : a.pending = []
  mode : a.status.mode = some .f32b
  form : b = a.wordForm n

/-- The relation R135 rests on is kept by a step on both sides, running or not. -/
theorem WordFormPair.step {n : Word} {a b : State} (h : WordFormPair n a b) :
    ∃ a' b', step a = .next a' ∧ step b = .next b' ∧ WordFormPair n a' b' := by
  obtain ⟨alone, mode, rfl⟩ := h
  have alone' : (a.wordForm n).pending = [] := alone
  cases hb : a.status.busy with
  | false => exact ⟨_, _, step_alone_idle alone hb, step_alone_idle alone' hb, alone, mode, rfl⟩
  | true =>
    obtain ⟨-, -, -, -, -, hpending, -, -, hmode, -⟩ := elementStep_frame .f32b a
    exact ⟨_, _, step_alone_running alone hb mode, step_alone_running alone' hb rfl, hpending.trans alone,
      hmode.trans mode, elementStep_wordForm n a⟩

/-! ### A command over a given length -/

/-- The host's one pending transition writes the command of kind `k`, over `LEN` = `len`. -/
def State.writing (s : State) (k : Kind) (len : Word) : State :=
  { s with len := len, pending := [.write (regAddr s.platform .ctrl) 32 (encode k.instr)] }

/-- The state in which a command over `LEN` = `len` starts: taken off the list, the status cleared (R100, R102). -/
def State.accepting (s : State) (len : Word) : State := statusClear ((s.withLen len).withPending [])

theorem step_writing (k : Kind) (len : Word) {s : State} (idle : s.status.busy = false) :
    step (s.writing k len) = .next (start k (lengthOperands k len) (s.accepting len)) :=
  step_commanded (s := s.writing k len) ⟨idle, rfl⟩

/-! ### R135: even lengths -/

/-- The two forms start as a pair (R102, R131, R133). -/
theorem start_wordFormPair (s : State) {n : Nat} (fits : 2 * n < 2 ^ 32) :
    WordFormPair (BitVec.ofNat 32 n)
      (start .f32b (lengthOperands .f32b (BitVec.ofNat 32 (2 * n))) (s.accepting (BitVec.ofNat 32 (2 * n))))
      (start .f32w (lengthOperands .f32w (BitVec.ofNat 32 n)) (s.accepting (BitVec.ofNat 32 n))) := by
  rw [lengthOperands_double fits]
  obtain ⟨-, -, -, -, -, hpending, -, hmode, -⟩ := start_frame .f32b (lengthOperands .f32w (BitVec.ofNat 32 n))
    (s.accepting (BitVec.ofNat 32 (2 * n)))
  exact ⟨hpending, hmode, start_wordForm _ _ (s.accepting (BitVec.ofNat 32 (2 * n)))⟩

/-- Settles O46: the two commands start as forms of one another, and every step keeps them so. -/
theorem byteAndWordFormsAgreeOnEvenLengths : Obligations.ByteAndWordFormsAgreeOnEvenLengths := by
  intro s n j idle fits
  cases j with
  | zero => exact ⟨_, _, rfl, rfl, rfl, rfl, rfl, rfl, rfl, rfl, rfl, rfl, nofun⟩
  | succ j =>
    obtain ⟨a, _, ha, hb, -, hmode, rfl⟩ := run_lockstep (fun _ _ => WordFormPair.step) j (start_wordFormPair s fits)
    exact ⟨_, _, (run_of_step (step_writing .f32b _ idle)).trans ha, (run_of_step (step_writing .f32w _ idle)).trans hb,
      rfl, rfl, rfl, rfl, rfl, rfl, rfl, rfl, fun _ => ⟨hmode, rfl⟩⟩

/-! ### R136: an odd length and a zero byte -/

/-- The machine whose `LEN` is one byte longer and which reads the last byte instead of padding it. -/
def State.zeroByteForm (s : State) : State := (s.withLen (s.len + 1)).withPad false

/-- `a` runs an `F32B` of odd length, alone, with the readable zero byte at `z` right after its buffer. -/
structure PaddedRun (z : Word) (a : State) : Prop where
  alone : a.pending = []
  busy : a.status.busy = true
  mode : a.status.mode = some .f32b
  pad : a.pad = true
  readable : a.memReadable z = true
  zero : a.memByte z = 0
  /-- What is left of the buffer, with the pad, ends at `z`. -/
  cursor : a.ptr + a.rem + a.rem = z + 1

/-- Both machines have stopped, showing the same. -/
structure EndedAlike (a b : State) : Prop where
  alone : a.pending = [] ∧ b.pending = []
  idle : a.status.busy = false
  status : b.status = a.status
  result : b.result = a.result
  c0 : b.c0 = a.c0
  c1 : b.c1 = a.c1

/-- The relation R136 rests on: `a` pads its last element and `b` reads the zero byte at `z` for it. -/
def ZeroBytePair (z : Word) (a b : State) : Prop := (PaddedRun z a ∧ b = a.zeroByteForm) ∨ EndedAlike a b

section
variable {z : Word} {a b : State}

/-- The last element's second byte is the zero byte (R56, R131). -/
theorem PaddedRun.ptr_succ_of_last (h : PaddedRun z a) (hr : a.rem = 1) : a.ptr + 1 = z := by
  have hcursor := h.cursor
  rw [hr] at hcursor
  exact add_right_cancel hcursor

/-- The two machines read the same element or both none; only the bytes of the last one differ (R105, R136). -/
theorem PaddedRun.read (h : PaddedRun z a) :
    (readElement .f32b a = none ∧ readElement .f32b a.zeroByteForm = none) ∨
    ∃ e e', readElement .f32b a = some e ∧ readElement .f32b a.zeroByteForm = some e' ∧ e'.value = e.value ∧
      (a.rem ≠ 1 → e' = e ∧ e.bytes = 2) := by
  have hk : Kind.f32b ≠ .f16 := by decide
  have full : ¬ (a.zeroByteForm.rem = 1 ∧ a.zeroByteForm.pad = true) := fun hp => nomatch hp.2
  by_cases hr : a.rem = 1
  · have hlast := h.ptr_succ_of_last hr
    cases h0 : a.memReadable a.ptr with
    | false =>
      exact .inl ⟨readElement_unreadable (.inl h0), readElement_unreadable (s := a.zeroByteForm) (.inl h0)⟩
    | true =>
      have h1 : a.memReadable (a.ptr + 1) = true := hlast ▸ h.readable
      have hbyte : a.memByte (a.ptr + 1) = 0 := hlast ▸ h.zero
      refine .inr ⟨_, _, readElement_padded hk ⟨hr, h.pad⟩ h0, readElement_pair hk full h0 h1, ?_, (absurd hr ·)⟩
      exact congrArg (element16 a.platform.wordOrder (a.memByte a.ptr)) hbyte
  · have same : readElement .f32b a.zeroByteForm = readElement .f32b a := by
      have full' : ¬ (a.rem = 1 ∧ a.pad = true) := fun hp => hr hp.1
      simp only [readElement, if_neg full, if_neg full']
      rfl
    cases read : readElement .f32b a with
    | none => exact .inl ⟨rfl, same.trans read⟩
    | some e =>
      exact .inr ⟨e, e, rfl, same.trans read, rfl, fun _ => ⟨rfl, BitVec.eq_of_toNat_eq (readElement_bytes read hr)⟩⟩

/-- An element before the last leaves the rest of the buffer ending at the zero byte (R104). -/
theorem PaddedRun.cursor_taken (h : PaddedRun z a) {e : Element} (bytes : e.bytes = 2) :
    (a.ptr + e.bytes) + (a.rem - 1) + (a.rem - 1) = z + 1 := by
  rw [bytes, ← h.cursor]
  ring

/-- An element step keeps the two machines related: both stop, both complete, or both go on. -/
theorem PaddedRun.elementStep (h : PaddedRun z a) :
    ZeroBytePair z (elementStep .f32b a) (elementStep .f32b a.zeroByteForm) := by
  rcases h.read with ⟨read, read'⟩ | ⟨e, e', read, read', value, inner⟩
  · rw [elementStep_bus read, elementStep_bus read']
    exact .inr ⟨⟨h.alone, h.alone⟩, rfl, rfl, rfl, rfl, rfl⟩
  · by_cases hr : a.rem = 1
    · obtain ⟨v, n⟩ := e
      obtain ⟨_, n'⟩ := e'
      cases value
      rw [elementStep_last read hr, elementStep_last read' hr]
      exact .inr ⟨⟨h.alone, h.alone⟩, rfl, rfl, rfl, rfl, rfl⟩
    · obtain ⟨rfl, bytes⟩ := inner hr
      have cursor := h.cursor_taken bytes
      by_cases hb : a.blk = 1
      · rw [elementStep_block read hr hb, elementStep_block read' hr hb]
        exact .inl ⟨⟨h.alone, h.busy, h.mode, h.pad, h.readable, h.zero, cursor⟩, rfl⟩
      · rw [elementStep_inner read hr hb, elementStep_inner read' hr hb]
        exact .inl ⟨⟨h.alone, h.busy, h.mode, h.pad, h.readable, h.zero, cursor⟩, rfl⟩

theorem ZeroBytePair.step (h : ZeroBytePair z a b) :
    ∃ a' b', step a = .next a' ∧ step b = .next b' ∧ ZeroBytePair z a' b' := by
  rcases h with ⟨run, rfl⟩ | ended
  · have alone' : a.zeroByteForm.pending = [] := run.alone
    exact ⟨_, _, step_alone_running run.alone run.busy run.mode, step_alone_running alone' run.busy run.mode,
      run.elementStep⟩
  · have idle' : b.status.busy = false := ended.status ▸ ended.idle
    exact ⟨_, _, step_alone_idle ended.alone.1 ended.idle, step_alone_idle ended.alone.2 idle', .inr ended⟩

theorem ZeroBytePair.agree (h : ZeroBytePair z a b) :
    a.status = b.status ∧ a.result = b.result ∧ a.c0 = b.c0 ∧ a.c1 = b.c1 := by
  rcases h with ⟨-, rfl⟩ | ended
  · exact ⟨rfl, rfl, rfl, rfl⟩
  · exact ⟨ended.status.symm, ended.result.symm, ended.c0.symm, ended.c1.symm⟩

end

/-- Start checks that differ only in the byte count answer the same when an aligned buffer fits for both or for neither
(R102, R163). -/
theorem startError_congr {k : Kind} {o o' : LengthOperands} {src : Word}
    (h : (wideElements k = true → src.toNat % 2 = 0) →
      (2 ^ 32 < src.toNat + o.nbytes ↔ 2 ^ 32 < src.toNat + o'.nbytes)) :
    startError k o src = startError k o' src := by
  by_cases hw : (wideElements k && src.getLsbD 0) = true
  · rw [startError, startError, if_pos hw, if_pos hw]
  · have aligned : wideElements k = true → src.toNat % 2 = 0 := by
      intro wide
      have heven : ¬ src.toNat % 2 = 1 := by simpa [wide, BitVec.getLsbD, Nat.testBit_zero] using hw
      omega
    rw [startError, startError, if_neg hw, if_neg hw]
    exact if_congr (h aligned) rfl rfl

/-- The operands of a length and of the length one byte longer: the same elements, one byte more and no pad (R131). -/
theorem lengthOperands_succ_of_odd {len : Word} (odd : len.toNat % 2 = 1) (fits : len.toNat + 1 < 2 ^ 32) :
    lengthOperands .f32b len = ⟨(len.toNat + 1) / 2, len.toNat, true⟩ ∧
    lengthOperands .f32b (len + 1) = ⟨(len.toNat + 1) / 2, len.toNat + 1, false⟩ := by
  have hlen : (len + 1).toNat = len.toNat + 1 := BitVec.toNat_add_of_lt fits
  have hcount : (len.toNat + 1 + 1) / 2 = (len.toNat + 1) / 2 := by omega
  have hodd : (len.toNat % 2 == 1) = true := beq_iff_eq.2 odd
  have heven : ((len.toNat + 1) % 2 == 1) = false := beq_eq_false_iff_ne.2 (by omega)
  simp only [lengthOperands, lengthF32B, hlen, hcount, hodd, heven, and_self]

/-- Rounded up, an odd length is half of the even one after it. -/
theorem elements_of_odd {len : Word} (odd : len.toNat % 2 = 1) :
    BitVec.ofNat 32 ((len.toNat + 1) / 2) + BitVec.ofNat 32 ((len.toNat + 1) / 2) = len + 1 := by
  have hsum : (len.toNat + 1) / 2 + (len.toNat + 1) / 2 = len.toNat + 1 := by omega
  rw [← BitVec.ofNat_add, hsum, BitVec.ofNat_add, BitVec.ofNat_toNat, BitVec.setWidth_eq]
  rfl

/-- The two commands stop at the same start check, or start as a pair (R102, R136). -/
theorem start_zeroBytePair {s : State} (odd : s.len.toNat % 2 = 1) (fits : s.len.toNat + 1 < 2 ^ 32)
    (readable : s.memReadable (s.src + s.len) = true) (zero : s.memByte (s.src + s.len) = 0) :
    ZeroBytePair (s.src + s.len) (start .f32b (lengthOperands .f32b s.len) (s.accepting s.len))
      (start .f32b (lengthOperands .f32b (s.len + 1)) (s.accepting (s.len + 1))) := by
  obtain ⟨hops, hops'⟩ := lengthOperands_succ_of_odd odd fits
  rw [hops, hops']
  have checks : startError .f32b ⟨(s.len.toNat + 1) / 2, s.len.toNat + 1, false⟩ s.src =
      startError .f32b ⟨(s.len.toNat + 1) / 2, s.len.toNat, true⟩ s.src :=
    startError_congr fun aligned => by
      have heven := aligned rfl
      show 2 ^ 32 < s.src.toNat + (s.len.toNat + 1) ↔ 2 ^ 32 < s.src.toNat + s.len.toNat
      omega
  have count : (s.len.toNat + 1) / 2 ≠ 0 := by omega
  cases hc : startError .f32b ⟨(s.len.toNat + 1) / 2, s.len.toNat, true⟩ s.src with
  | some code =>
    rw [start_eq_errorStop (s := s.accepting s.len) hc,
      start_eq_errorStop (s := s.accepting (s.len + 1)) (checks.trans hc)]
    exact .inr ⟨⟨rfl, rfl⟩, rfl, rfl, rfl, rfl, rfl⟩
  | none =>
    rw [start_eq_running (s := s.accepting s.len) hc count,
      start_eq_running (s := s.accepting (s.len + 1)) (checks.trans hc) count]
    refine .inl ⟨⟨rfl, rfl, rfl, rfl, readable, zero, ?_⟩, rfl⟩
    show s.src + BitVec.ofNat 32 ((s.len.toNat + 1) / 2) + BitVec.ofNat 32 ((s.len.toNat + 1) / 2) =
      s.src + s.len + 1
    rw [add_assoc, elements_of_odd odd, ← add_assoc]

/-- Settles O47: the two commands start as a pair, or stop alike, and every step keeps them so. -/
theorem oddLengthEqualsZeroPaddedLength : Obligations.OddLengthEqualsZeroPaddedLength := by
  intro s j idle odd fits readable zero
  cases j with
  | zero => exact ⟨_, _, rfl, rfl, rfl, rfl, rfl, rfl⟩
  | succ j =>
    obtain ⟨a, b, ha, hb, pair⟩ := run_lockstep (fun _ _ => ZeroBytePair.step) j
      (start_zeroBytePair odd fits readable zero)
    exact ⟨a, b, (run_of_step (step_writing .f32b s.len idle)).trans ha,
      (run_of_step (step_writing .f32b (s.len + 1) idle)).trans hb, pair.agree⟩

end Sys2Proof.Machine

/-! SUPPORT. The control commands `NOP`, `ABORT` and `CLEAR` and the illegal words settled (43_control.md R150 to R153):
what each answers, idle and busy, and what none of them writes. -/

namespace Sys2Proof.Machine

/-! ### The record of an idle engine -/

section
variable {st : Status} (idle : st.busy = false)
include idle

/-- The status clear leaves `BUSY`, so only of an idle engine is all of `STATUS` back at reset (R101, R152). -/
theorem status_cleared_withMode_none_idle :
    st.cleared.withMode none = ⟨false, false, false, false, .none, none⟩ := by
  rw [Status.withMode, Status.cleared, idle]

/-- The error stop of an idle engine leaves `BUSY` as it is (R101, R162). -/
theorem status_cleared_stopped_idle (code : ECode) :
    st.cleared.stopped code = { st with done := false, ovr := false, err := true, ecode := code } := by
  rw [Status.stopped, Status.cleared, ← idle]

end

/-- The record at reset reads 0 (R152, R43). -/
theorem status_reset_word : Status.word ⟨false, false, false, false, .none, none⟩ = 0 := by decide

/-! ### What each command answers -/

theorem exec_nop (s : State) : exec .nop s = .next s := rfl

section
variable {s : State} (busy : s.status.busy = true)
include busy

theorem exec_abort_busy : exec .abort s = .next (errorStop .aborted s) := by
  rw [exec, execAbort, if_pos busy]

theorem exec_clear_busy : exec .clear s = .next (dropCommand s) := by
  rw [exec, execClear, acceptOrDrop_busy _ busy]

end

section
variable {s : State} (idle : s.status.busy = false)
include idle

theorem exec_abort_idle : exec .abort s = .next s := by
  rw [exec, execAbort, if_neg (ne_true_of_eq_false idle)]

theorem exec_clear_idle : exec .clear s = .next (clearRecord (statusClear s)) := by
  rw [exec, execClear, acceptOrDrop_idle _ idle]

theorem clearRecord_statusClear_idle :
    clearRecord (statusClear s) = { s with
      status := ⟨false, false, false, false, .none, none⟩
      result := 0, c0 := 0, c1 := 0, ptr := 0, rem := 0, blk := 0, pad := false } := by
  rw [← status_cleared_withMode_none_idle idle]
  rfl

end

/-- A word that is no command comes next: what the step does then (R153). -/
theorem step_illegalWord {s : State} {v : Word} (next : s.NextCommand v) (illegal : 6 ≤ v.toNat) :
    step s = .next (acceptOrDrop (errorStop .illegal) s.popped) := by
  obtain ⟨why, hdecode⟩ := decode_of_ge illegal
  rw [step_write next, writeReg, writeCtrl, hdecode]
  rfl

/-! ### The statements -/

/-- Settles O4: the word passes R100's frame, whose effect is the error stop. -/
theorem illegalWordsStopOrAreDropped : Obligations.IllegalWordsStopOrAreDropped := by
  intro s v rest pending illegal
  have next : s.NextCommand v := by rw [State.NextCommand, pending]; rfl
  refine ⟨fun idle => ?_, fun busy => ?_⟩
  · rw [step_illegalWord next illegal, acceptOrDrop_idle (s := s.popped) _ idle,
      ← status_cleared_stopped_idle idle .illegal, popped_cons pending]
    rfl
  · rw [step_dropped next (illegal_word_accepted illegal) busy, popped_cons pending]
    rfl

/-- Settles O14: what no command writes is `exec_frame`; the rest by the command, idle or busy. -/
theorem controlCommandFrame : Obligations.ControlCommandFrame := by
  intro i s t which h
  obtain ⟨hsrc, hlen, hinten, hmem, hplat, hpend, hret⟩ := exec_frame h
  refine ⟨hsrc, hlen, hinten, hplat, hpend, hret, fun a => by rw [hmem], ?_⟩
  rcases which with rfl | rfl | rfl
  · cases (exec_nop s).symm.trans h
    exact ⟨fun _ => ⟨rfl, rfl, rfl, rfl, rfl, rfl, rfl, rfl⟩, fun _ => rfl, nofun, nofun⟩
  · cases hb : s.status.busy with
    | true =>
      cases (exec_abort_busy hb).symm.trans h
      exact ⟨fun _ => ⟨rfl, rfl, rfl, rfl, rfl, rfl, rfl, rfl⟩, nofun, fun _ => ⟨rfl, nofun⟩, nofun⟩
    | false =>
      cases (exec_abort_idle hb).symm.trans h
      exact ⟨fun _ => ⟨rfl, rfl, rfl, rfl, rfl, rfl, rfl, rfl⟩, nofun, fun _ => ⟨rfl, fun _ => rfl⟩, nofun⟩
  · cases hb : s.status.busy with
    | true =>
      cases (exec_clear_busy hb).symm.trans h
      exact ⟨fun _ => ⟨rfl, rfl, rfl, rfl, rfl, rfl, rfl, rfl⟩, nofun, nofun, fun _ _ => rfl⟩
    | false => exact ⟨fun kept => kept.elim nofun (·.elim nofun nofun), nofun, nofun, fun _ => nofun⟩

/-- Settles O5. -/
theorem nopHasNoEffect : Obligations.NopHasNoEffect := exec_nop

/-- Settles O6: while busy the error stop, while idle nothing. -/
theorem abortStopsOnlyARunningCommand : Obligations.AbortStopsOnlyARunningCommand :=
  fun _ => ⟨exec_abort_busy, exec_abort_idle⟩

/-- Settles O7: with every field of `STATUS` zero its word is 0, and neither cause of `IRQ` is left. -/
theorem clearReturnsTheRecordToReset : Obligations.ClearReturnsTheRecordToReset := by
  refine fun s => ⟨fun idle => ?_, exec_clear_busy⟩
  rw [exec_clear_idle idle, clearRecord_statusClear_idle idle]
  exact ⟨_, rfl, rfl, status_reset_word, rfl⟩

end Sys2Proof.Machine

/-! SUPPORT. The statements about errors and the interrupt line settled (60_exceptions.md R160 to R166): what each error
code's cause is, what an error stop writes, and what alone moves `ERR`, `ECODE` and `IRQ`. -/

namespace Sys2Proof.Machine

/-! ### The `ALIGN` stop of a start -/

/-- An odd `SRC` stops a start over 16-bit elements before its `LENGTH` check (R102, R163). -/
theorem start_alignStop {k : Kind} {s : State} (wide : k ≠ .f16) (odd : s.src.toNat % 2 = 1) :
    start k (lengthOperands k s.len) (statusClear s) =
      errorStop .align (s.withStatus (s.status.cleared.withMode (some k))) := by
  have hc : startError k (lengthOperands k s.len) (statusClear s).src = some .align := by
    rcases startError_cases k (lengthOperands k s.len) s.src with ⟨h, -⟩ | ⟨-, aligned, -⟩ | ⟨-, aligned, -⟩
    · exact h
    all_goals
      have heven := aligned (wideElements_iff.2 wide)
      omega
  simp only [start, hc]
  rfl

/-- Settles O12: the `ALIGN` check is the first one, and `LEN` is no part of it. -/
theorem oddSourceStopsWithAlign : Obligations.OddSourceStopsWithAlign := by
  intro k s wide idle odd
  rw [exec_kind_idle k idle, start_alignStop wide odd]
  rfl

/-! ### What one step does to the error record -/

/-- The cause of an error stop in the next step, by the code it records and the `MODE` it leaves (R160). -/
inductive StopCause (s : State) : ECode → Option Kind → Prop
  /-- An illegal word while idle (R153). -/
  | illegalWord (v : Word) (next : s.NextCommand v) (illegal : 6 ≤ v.toNat) (idle : s.status.busy = false) :
      StopCause s .illegal s.status.mode
  /-- An odd `SRC` at a start over 16-bit elements (R102). -/
  | oddSource (k : Kind) (next : s.NextCommand (encode k.instr)) (idle : s.status.busy = false) (wide : k ≠ .f16)
      (odd : s.src.toNat % 2 = 1) : StopCause s .align (some k)
  /-- A buffer past the address space at a start (R102). -/
  | pastEnd (k : Kind) (next : s.NextCommand (encode k.instr)) (idle : s.status.busy = false)
      (past : 2 ^ 32 < s.src.toNat + byteCount k s) : StopCause s .length (some k)
  /-- An element that cannot be read (R105). -/
  | unreadable (k : Kind) (next : s.NextEngine) (busy : s.status.busy = true) (mode : s.status.mode = some k)
      (read : readElement k s = none) : StopCause s .bus s.status.mode
  /-- `ABORT` while busy (R151). -/
  | aborted (next : s.NextCommand 4) (busy : s.status.busy = true) : StopCause s .aborted s.status.mode

/-- The state after a step that ends in an error stop: the stop keeps `OVR`, but the status clear before it, which only
an idle engine does, takes it away (R100, R101, R162). -/
def State.stoppedWith (s : State) (code : ECode) (mode : Option Kind) : State :=
  errorStop code (s.popped.withStatus { s.status with ovr := s.status.busy && s.status.ovr, mode := mode })

theorem errorStop_eq_stoppedWith_of_busy (code : ECode) {s : State} (busy : s.status.busy = true) :
    errorStop code s.popped = s.stoppedWith code s.status.mode := by
  rw [State.stoppedWith, busy]
  rfl

theorem errorStop_eq_stoppedWith_of_idle (code : ECode) (mode : Option Kind) {s : State}
    (idle : s.status.busy = false) :
    errorStop code (s.popped.withStatus (s.status.cleared.withMode mode)) = s.stoppedWith code mode := by
  rw [State.stoppedWith, idle]
  rfl

/-- What a step does to `ERR` and `ECODE` (R25, R27). -/
inductive RecordCase (s t : State) : Prop
  /-- `STATUS` is as before. -/
  | kept (same : t.status = s.status)
  /-- A running engine goes on, completes or drops a word: the error record is as before. -/
  | noError (busy : s.status.busy = true) (err : t.status.err = s.status.err) (ecode : t.status.ecode = s.status.ecode)
  /-- An accepted command or a reset clears the error record (R101, R180). -/
  | cleared (err : t.status.err = false) (ecode : t.status.ecode = .none)
      (cause : s.NextReset ∨ (s.status.busy = false ∧ ∃ v, s.NextCommand v ∧ v ≠ 0 ∧ v ≠ 4))
  /-- An error stop (R162). -/
  | stopped (code : ECode) (mode : Option Kind) (cause : StopCause s code mode) (result : t = s.stoppedWith code mode)

/-- An element that is read leaves the error record (R104). -/
theorem elementStep_keeps_error {k : Kind} {s : State} {e : Element} (read : readElement k s = some e) :
    (elementStep k s).status.err = s.status.err ∧ (elementStep k s).status.ecode = s.status.ecode := by
  rw [elementStep_of_read read]
  by_cases last : s.rem = 1
  · simp only [if_pos last, status_completed_err, status_completed_ecode, and_self]
  · simp only [if_neg last, and_self]

/-- A start check that fails is the cause its code names (R102, R160). -/
theorem stopCause_of_startError {k : Kind} {s : State} {code : ECode} (next : s.NextCommand (encode k.instr))
    (idle : s.status.busy = false) (check : startError k (lengthOperands k s.len) s.src = some code) :
    StopCause s code (some k) := by
  rcases startError_cases k (lengthOperands k s.len) s.src with ⟨h, wide, odd⟩ | ⟨h, -, past⟩ | ⟨h, -⟩
  · cases h.symm.trans check
    exact .oddSource k next idle (wideElements_iff.1 wide) odd
  · cases h.symm.trans check
    exact .pastEnd k next idle past
  · cases h.symm.trans check

/-- A word accepted while idle clears the error record or stops with an error (R100, R101). -/
theorem AcceptCase.record {v : Word} {s t : State} (h : AcceptCase v s t) (next : s.NextCommand v)
    (word : v ≠ 0 ∧ v ≠ 4) (idle : s.status.busy = false) : RecordCase s t := by
  have cause : s.NextReset ∨ (s.status.busy = false ∧ ∃ v, s.NextCommand v ∧ v ≠ 0 ∧ v ≠ 4) :=
    .inr ⟨idle, v, next, word⟩
  cases h with
  | illegalWord illegal result =>
    exact .stopped _ _ (.illegalWord v next illegal idle)
      (result.trans (errorStop_eq_stoppedWith_of_idle .illegal s.status.mode idle))
  | startStopped k word code check result =>
    subst word
    exact .stopped _ _ (stopCause_of_startError next idle check)
      (result.trans (errorStop_eq_stoppedWith_of_idle code (some k) idle))
  | cleared _ result
  | zeroLength _ _ _ _ result
  | started _ _ _ _ result => subst result; exact .cleared rfl rfl cause

/-- The inversion lemma of `step`, as the error record sees it. -/
theorem record_cases {s t : State} (h : step s = .next t) : RecordCase s t := by
  cases engine_cases h with
  | quiet same => exact .kept same.1.symm
  | element k next busy mode result =>
    subst result
    cases read : readElement k s.popped with
    | none =>
      rw [elementStep_bus read]
      exact .stopped _ _ (.unreadable k next busy mode read) (errorStop_eq_stoppedWith_of_busy .bus busy)
    | some e =>
      obtain ⟨herr, hecode⟩ := elementStep_keeps_error read
      exact .noError busy herr hecode
  | aborted next busy result =>
    exact .stopped _ _ (.aborted next busy) (result.trans (errorStop_eq_stoppedWith_of_busy .aborted busy))
  | dropped _ _ _ busy result => subst result; exact .noError busy rfl rfl
  | accepted v next word idle effect => exact effect.record next word idle
  | reset next result => subst result; exact .cleared rfl rfl (.inl next)

/-! ### The statements about the error record -/

/-- Every cause has a code other than 0 (R27). -/
theorem StopCause.code_ne_none {s : State} {code : ECode} {mode : Option Kind} (h : StopCause s code mode) :
    code ≠ .none := by
  cases h <;> decide

/-- Only a start that its checks stop writes `MODE` (R162). -/
theorem StopCause.mode_kept {s : State} {code : ECode} {mode : Option Kind} (h : StopCause s code mode) :
    mode = s.status.mode ∨ code = .align ∨ code = .length := by
  cases h with
  | oddSource => exact .inr (.inl rfl)
  | pastEnd => exact .inr (.inr rfl)
  | illegalWord | unreadable | aborted => exact .inl rfl

/-- Settles O20: by the cases of `record_cases`, a step that leaves `ERR` set in a changed `STATUS` is an error stop, or
one of a running command that had an error recorded. -/
theorem errorStopChangesOnlyTheRecord : Obligations.ErrorStopChangesOnlyTheRecord := by
  refine ⟨fun _ _ => rfl, fun s t noRecord h herr hne => ?_⟩
  cases record_cases h with
  | kept same => exact absurd same hne
  | noError busy err => simp [noRecord busy, herr] at err
  | cleared err => simp [herr] at err
  | stopped code mode cause result =>
    subst result
    exact ⟨cause.code_ne_none, cause.mode_kept, rfl⟩

/-- Settles O33: by the cases of `record_cases`, and for an error stop by its cause. -/
theorem errorsHaveTheirCauses : Obligations.ErrorsHaveTheirCauses := by
  intro s t h hne
  cases record_cases h with
  | kept same => simp [same] at hne
  | noError _ err ecode => simp [err, ecode] at hne
  | cleared err ecode cause => exact .inr ⟨err, ecode, cause⟩
  | stopped code mode cause result =>
    subst result
    refine .inl ⟨rfl, rfl, rfl, rfl, rfl, rfl, ?_⟩
    cases cause with
    | illegalWord v next illegal idle => exact .inl ⟨rfl, idle, rfl, v, next, illegal⟩
    | oddSource k next idle wide odd => exact .inr (.inl ⟨rfl, idle, odd, k, wide, next, rfl⟩)
    | pastEnd k next idle past => exact .inr (.inr (.inl ⟨rfl, idle, k, next, rfl, past⟩))
    | unreadable k next busy mode read => exact .inr (.inr (.inr (.inl ⟨rfl, busy, rfl, next, k, mode, read⟩)))
    | aborted next busy => exact .inr (.inr (.inr (.inr ⟨rfl, busy, rfl, next⟩)))

/-- `ERR` falls only by an accepted command or reset, since an error stop sets it (R25). -/
theorem step_err_falls {s t : State} (h : step s = .next t) (high : s.status.err = true)
    (fall : t.status.err = false) :
    s.NextReset ∨ (s.status.busy = false ∧ ∃ v, s.NextCommand v ∧ v ≠ 0 ∧ v ≠ 4) := by
  cases record_cases h with
  | kept same => simp [same, high] at fall
  | noError _ err => simp [err, high] at fall
  | cleared _ _ cause => exact cause
  | stopped _ _ _ result => subst result; cases fall

/-! ### The interrupt line -/

/-- The line as the causes of R165. -/
theorem irq_eq_true_iff {s : State} : s.irq = true ↔
    (s.status.done = true ∧ s.inten.ieDone = true) ∨ (s.status.err = true ∧ s.inten.ieErr = true) := by
  simp only [State.irq, Bool.or_eq_true, Bool.and_eq_true]

/-- With the same enables, the line is low in `s` and high in `t` only if `DONE` or `ERR` is (R165). -/
theorem record_differs_of_irq_differs {s t : State} (inten : t.inten = s.inten) (low : s.irq = false)
    (high : t.irq = true) :
    (s.status.done = false ∧ t.status.done = true) ∨ (s.status.err = false ∧ t.status.err = true) := by
  have hlow := mt irq_eq_true_iff.2 (ne_true_of_eq_false low)
  rcases irq_eq_true_iff.1 high with ⟨hdone, enabled⟩ | ⟨herr, enabled⟩ <;> rw [inten] at enabled
  · exact .inl ⟨eq_false_of_ne_true fun h => hlow (.inl ⟨h, enabled⟩), hdone⟩
  · exact .inr ⟨eq_false_of_ne_true fun h => hlow (.inr ⟨h, enabled⟩), herr⟩

/-- The enables change only by a write to `INTEN` or by reset, which lowers the line (R35, R180). -/
theorem step_inten {s t : State} (h : step s = .next t) :
    t.inten = s.inten ∨ (∃ v, s.pending.head? = some (.write (regAddr s.platform .inten) 32 v)) ∨
    (s.NextReset ∧ t.irq = false) := by
  cases host_cases h with
  | kept same => exact .inl same.inten
  | writeIntEn v next => exact .inr (.inl ⟨v, next⟩)
  | reset next result => subst result; exact .inr (.inr ⟨next, rfl⟩)
  | writeSrc _ _ result
  | writeLen _ _ result
  | memWrite _ _ _ result => subst result; exact .inl rfl

/-- Settles O37: with the enables kept, the line moves only if `DONE` or `ERR` does, and what alone clears those is
`step_done_falls` and `step_err_falls`. -/
theorem irqChangesOnlyByRecordEnableOrReset : Obligations.IrqChangesOnlyByRecordEnableOrReset := by
  refine ⟨fun _ => irq_eq_true_iff, fun s t h low rise => ?_, fun s t noRecord h high fall => ?_⟩
  · rcases step_inten h with inten | write | ⟨-, lowered⟩
    · exact (record_differs_of_irq_differs inten low rise).imp_right .inl
    · exact .inr (.inr write)
    · cases rise.symm.trans lowered
  · rcases step_inten h with inten | write | ⟨next, -⟩
    · rcases record_differs_of_irq_differs inten.symm fall high with ⟨cleared, set⟩ | ⟨cleared, set⟩
      · rcases step_done_falls h set cleared with accepted | ⟨busy, -⟩ | next
        · exact .inl accepted
        · cases set.symm.trans (noRecord busy).1
        · exact .inr (.inr next)
      · rcases step_err_falls h set cleared with next | accepted
        · exact .inr (.inr next)
        · exact .inl accepted
    · exact .inr (.inl write)
    · exact .inr (.inr next)

end Sys2Proof.Machine

/-! SUPPORT. The statements about reset and hazards settled (70_reset_and_hazards.md R180, R181, R186, R187): what a
reset leaves, what a word written while busy does, and that no other host traffic reaches the engine. -/

namespace Sys2Proof.Machine

/-! ### Host traffic beside the engine -/

/-- The state with the registers that only the host writes, and the model's own two lists, taken from `u`: everything
the engine's turn neither reads nor writes (R45, R187). -/
def State.withHostSide (s u : State) : State :=
  { s with src := u.src, len := u.len, inten := u.inten, pending := u.pending, returned := u.returned }

/-- An element step reads the operands latched by the start, never the host's registers (R105, R187). -/
theorem readElement_withHostSide (k : Kind) (s u : State) : readElement k (s.withHostSide u) = readElement k s := rfl

/-- An element step is the same whatever the host's registers hold (R104, R187). -/
theorem elementStep_withHostSide (k : Kind) (s u : State) :
    elementStep k (s.withHostSide u) = (elementStep k s).withHostSide u := by
  have same := readElement_withHostSide k s u
  rcases elementStep_cases k s with ⟨read, hs⟩ | ⟨e, read, ⟨hr, hs⟩ | ⟨hr, hb, hs⟩ | ⟨hr, hb, hs⟩⟩ <;> rw [hs]
  · rw [elementStep_bus (same.trans read)]
    rfl
  · rw [elementStep_last (same.trans read) hr]
    rfl
  · rw [elementStep_block (same.trans read) hr hb]
    rfl
  · rw [elementStep_inner (same.trans read) hr hb]
    rfl

/-- A host transition that is a bystander is answered, and writes nothing outside the host's side (R41, R42). -/
theorem transition_bystander {s : State} {act : Action} (bystander : Bystander s.platform act)
    (host : act ≠ .engine) : ∃ t, transition act s = .next t ∧ t.pending = s.pending ∧ t.platform = s.platform ∧
      ∀ u, t.withHostSide u = s.withHostSide u := by
  cases act with
  | write addr width v =>
    obtain ⟨wf, notCtrl⟩ := bystander
    obtain ⟨r, hr⟩ := busRegister_wf.2 wf
    obtain ⟨-, rfl⟩ := busRegister_ok.1 hr
    rw [transition, hostWrite, hr]
    cases r with
    | ctrl => exact absurd rfl notCtrl
    | status | src | len | result | c0 | c1 | inten => exact ⟨_, rfl, rfl, rfl, fun _ => rfl⟩
  | read addr width =>
    obtain ⟨r, hr⟩ := busRegister_wf.2 bystander
    rw [transition, hostRead, hr]
    exact ⟨_, rfl, rfl, rfl, fun _ => rfl⟩
  | memRead a => exact ⟨_, rfl, rfl, rfl, fun _ => rfl⟩
  | engine => exact absurd rfl host
  | memWrite | reset => exact bystander.elim

/-- The engine's turn in the middle of host traffic is the step that the engine alone takes (R187, R190). -/
theorem engineTurn_withHostSide {s t u : State} (alone : u.pending = []) (turn : engineTurn s = .next t) :
    t.pending = s.pending ∧ t.platform = s.platform ∧ step (s.withHostSide u) = .next (t.withHostSide u) := by
  rcases engineTurn_cases turn with ⟨idle, rfl⟩ | ⟨busy, k, mode, rfl⟩
  · exact ⟨rfl, rfl, step_alone_idle alone idle⟩
  · obtain ⟨-, -, -, -, platform, pending, -⟩ := elementStep_frame k s
    rw [← elementStep_withHostSide]
    exact ⟨pending, platform, step_alone_running (s := s.withHostSide u) alone busy mode⟩

/-- A run of one step or more, taken apart at its first step. -/
theorem exists_step_of_run {n : Nat} {s t : State} (run : Host.Core.run Sys2Proof.core (n + 1) s = .next t) :
    ∃ s', step s = .next s' ∧ Host.Core.run Sys2Proof.core n s' = .next t := by
  simp only [Host.Core.run] at run
  split at run
  · next s' first => exact ⟨s', first, run⟩
  · cases run
  · cases run

/-- Among bystanders only the engine's turns count: without the others the run ends in the same state, but for the
host's side (R187). -/
theorem run_bystanders {u : State} (alone : u.pending = []) (acts : List Action) {s t : State}
    (pending : s.pending = acts) (bystanders : ∀ act ∈ acts, Bystander s.platform act)
    (run : Host.Core.run Sys2Proof.core acts.length s = .next t) :
    Host.Core.run Sys2Proof.core (acts.count .engine) (s.withHostSide u) = .next (t.withHostSide u) := by
  induction acts generalizing s with
  | nil => cases run; rfl
  | cons act rest ih =>
    obtain ⟨s', first, further⟩ := exists_step_of_run run
    obtain ⟨bystander, others⟩ := List.forall_mem_cons.1 bystanders
    rw [step_cons pending] at first
    have popped : s.popped.pending = rest := congrArg List.tail pending
    by_cases engine : act = .engine
    · subst engine
      obtain ⟨pending', platform, turn⟩ := engineTurn_withHostSide (s := s.popped) alone first
      rw [List.count_cons_self]
      exact (run_of_step turn).trans (ih (pending'.trans popped) (platform ▸ others) further)
    · obtain ⟨_, answer, pending', platform, same⟩ := transition_bystander (s := s.popped) bystander engine
      cases answer.symm.trans first
      rw [List.count_cons_of_ne engine]
      exact same u ▸ ih (pending'.trans popped) (platform ▸ others) further

/-- Settles O49: `run_bystanders`, with the host's side of the engine alone held at what it is before the traffic. -/
theorem hostRegisterTrafficNeverDisturbsTheEngine : Obligations.HostRegisterTrafficNeverDisturbsTheEngine := by
  intro s t bystanders run
  exact ⟨_, run_bystanders (u := { s with pending := [] }) rfl s.pending rfl bystanders run,
    ⟨rfl, rfl, rfl, rfl, rfl, rfl, rfl, rfl⟩, rfl⟩

/-! ### A word written while busy -/

/-- Settles O13, by the word: dropped, `NOP`, or `ABORT` (R100). -/
theorem commandWrittenWhileBusyIsDropped : Obligations.CommandWrittenWhileBusyIsDropped := by
  intro s v rest busy pending
  have next : s.NextCommand v := congrArg List.head? pending
  refine ⟨fun notNop notAbort => ?_, fun nop => ?_, fun abort => ?_⟩
  · rw [step_dropped next ⟨notNop, notAbort⟩ busy, popped_cons pending]
    rfl
  · subst nop
    rw [step_command (i := .nop) next, exec_nop, popped_cons pending]
  · subst abort
    rw [step_command (i := .abort) next, exec_abort_busy (s := s.popped) busy, popped_cons pending]
    rfl

/-! ### Reset -/

/-- Settles O26. -/
theorem resetZeroesTheEngineAndKeepsMemory : Obligations.ResetZeroesTheEngineAndKeepsMemory := by
  intro s rest pending
  rw [step_cons pending, popped_cons pending]
  exact ⟨_, rfl, rfl, rfl⟩

/-- Every register reads 0 after reset (R43). -/
theorem readReg_reset (r : Reg) : readReg r State.reset = 0 := by
  cases r with
  | status => exact status_reset_word
  | ctrl | src | len | result | c0 | c1 | inten => rfl

/-- Settles O27. -/
theorem resetStateIsIdleWithNoRecord : Obligations.ResetStateIsIdleWithNoRecord :=
  ⟨rfl, rfl, readReg_reset, rfl, rfl, rfl, rfl, rfl⟩

end Sys2Proof.Machine
